-- ==== Sys2Proof/Word.lean ====
section
/-! DEFINITION. The word and byte types, and the two fixed groups of eight words: the state accumulator `H[0..7]`
(10_state.md R21) and the working variables `a..h` (10_state.md R22). -/

namespace Sys2Proof

/-- A 32-bit unsigned word (00_scope.md R6 WORD_W, R8). -/
abbrev Word := BitVec 32

/-- An 8-bit byte (00_scope.md R8). -/
abbrev Byte := BitVec 8

/-- Eight 32-bit words in order: the type of the accumulator `H[0..7]`, of the constant `IV[0..7]` and of the operand
of INIT_IV (10_state.md R21). -/
@[ext]
structure HashState where
  h0 : Word
  h1 : Word
  h2 : Word
  h3 : Word
  h4 : Word
  h5 : Word
  h6 : Word
  h7 : Word
  deriving DecidableEq, Repr

/-- The working variables `a..h` of one compression; transient, never part of the machine's state (10_state.md R22). -/
@[ext]
structure WorkVars where
  a : Word
  b : Word
  c : Word
  d : Word
  e : Word
  f : Word
  g : Word
  h : Word
  deriving DecidableEq, Repr

end Sys2Proof
end

