-- ==== Sys2Proof/Machine/WordFunctions.lean ====
section
/-! DEFINITION. The pure functions on 32-bit words (40_word_functions.md). Addition is `BitVec` addition, modulo 2^32
(R90); XOR, AND, NOT are `BitVec`'s bitwise operations (R91). -/

namespace Sys2Proof.Machine

/-- `rotr(x, n)`, used for 1 <= `n` <= 31 (R92, GK3). -/
def rotr (x : Word) (n : Nat) : Word := (x >>> n) ||| (x <<< (32 - n))

/-- `x >> n`, logical (R93). -/
def shr (x : Word) (n : Nat) : Word := x >>> n

/-- `σ0` (R94). -/
def ssig0 (x : Word) : Word := rotr x 7 ^^^ rotr x 18 ^^^ shr x 3

/-- `σ1` (R95). -/
def ssig1 (x : Word) : Word := rotr x 17 ^^^ rotr x 19 ^^^ shr x 10

/-- `Σ0` (R96). -/
def bsig0 (x : Word) : Word := rotr x 2 ^^^ rotr x 13 ^^^ rotr x 22

/-- `Σ1` (R97). -/
def bsig1 (x : Word) : Word := rotr x 6 ^^^ rotr x 11 ^^^ rotr x 25

/-- `Ch` (R98). -/
def ch (e f g : Word) : Word := (e &&& f) ^^^ (~~~e &&& g)

/-- `Maj` (R99). -/
def maj (a b c : Word) : Word := (a &&& b) ^^^ (a &&& c) ^^^ (b &&& c)

end Sys2Proof.Machine
end

