-- ==== Sys2Proof/Machine/Schedule.lean ====
section
/-! DEFINITION. The message-schedule expander: W_LOAD, W_EXPAND, SCHEDULE (41_schedule.md). -/

namespace Sys2Proof.Machine

/-- The 64 bytes of a block by their 6-bit index: the index register is exactly as wide as the file, so no index is out
of range (20_memory.md R56; 42_compress.md R126). -/
abbrev Block := BitVec 6 → Byte

/-- `MemRead(a, 4)`: four consecutive bytes, the first most significant (00_scope.md R10; 20_memory.md R52). It is used
at `a` = `4t` only, where `a + 3` does not wrap (R56). -/
def memRead4 (blk : Block) (a : BitVec 6) : Word :=
  blk a ++ blk (a + 1#6) ++ blk (a + 2#6) ++ blk (a + 3#6)

/-- W_LOAD: `W[t] <- MemRead(4t, 4)` for `t` = 0..15 (R110). -/
def wLoad (blk : Block) : List Word :=
  (List.range 16).map fun t => memRead4 blk (BitVec.ofNat 6 (4 * t))

/-- `W[i]` of the entries written so far; every use reads an entry already written (10_state.md R23). -/
def wWord (w : List Word) (i : Nat) : Word := w.getD i 0#32

/-- W_EXPAND(`i`) on the entries `W[0..i-1]`: it writes `W[i]` and changes no other (R111). -/
def wExpand (w : List Word) (i : Nat) : List Word :=
  w ++ [wWord w (i - 16) + ssig0 (wWord w (i - 15)) + wWord w (i - 7) + ssig1 (wWord w (i - 2))]

/-- SCHEDULE: W_LOAD, then W_EXPAND(`i`) for `i` = 16..63 in increasing order (R112). -/
def schedule (blk : Block) : List Word :=
  (List.range' 16 48).foldl wExpand (wLoad blk)

end Sys2Proof.Machine
end

