-- ==== Sys2Proof/Machine/Compress.lean ====
section
/-! DEFINITION. The compression core: WV_INIT, ROUND, FEEDFWD and COMPRESS as a pure function (42_compress.md R125 to
R127: "a model implements it as a pure function and may discard `W`, `a..h`, `T1`, `T2` afterwards"). -/

namespace Sys2Proof.Machine

/-- WV_INIT (R120). -/
def wvInit (h : HashState) : WorkVars := ⟨h.h0, h.h1, h.h2, h.h3, h.h4, h.h5, h.h6, h.h7⟩

/-- `T1` of a round with constant `k` and schedule word `w` (R121). -/
def roundT1 (v : WorkVars) (k w : Word) : Word := v.h + bsig1 v.e + ch v.e v.f v.g + k + w

/-- `T2` of a round (R121). -/
def roundT2 (v : WorkVars) : Word := bsig0 v.a + maj v.a v.b v.c

/-- ROUND with constant `k` and schedule word `w`: all eight assignments together, from the old values (R122). -/
def round (v : WorkVars) (k w : Word) : WorkVars where
  a := roundT1 v k w + roundT2 v
  b := v.a
  c := v.b
  d := v.c
  e := v.d + roundT1 v k w
  f := v.e
  g := v.f
  h := v.g

/-- The first `n` rounds, ROUND(`i`) with `K[i]` and `W[i]` for `i` = 0..`n`-1 (R121, R123). -/
def rounds (w : List Word) (n : Nat) (v : WorkVars) : WorkVars :=
  (List.range n).foldl (fun v i => round v (kWord i) (wWord w i)) v

/-- FEEDFWD: each word's addition wraps on its own (R124). -/
def feedfwd (h : HashState) (v : WorkVars) : HashState :=
  ⟨h.h0 + v.a, h.h1 + v.b, h.h2 + v.c, h.h3 + v.d, h.h4 + v.e, h.h5 + v.f, h.h6 + v.g, h.h7 + v.h⟩

/-- COMPRESS: SCHEDULE, WV_INIT, 64 rounds, FEEDFWD (R125). -/
def compress (h : HashState) (blk : Block) : HashState :=
  feedfwd h (rounds (schedule blk) 64 (wvInit h))

end Sys2Proof.Machine
end

