-- ==== Sys2Proof/Config.lean ====
section
/-! DEFINITION. What is fixed for the machine but not given a value by the spec: the one free value. The parameters of
00_scope.md R6 are fixed numbers that the definitions carry in their types and loop bounds. The open parameters LATENCY
and N_INSTANCES (R7) are read by no rule and have no place here (logs 9, 10). -/

namespace Sys2Proof

/-- The value of a byte `BUF[p]` that nothing has written since the hardware reset number `epoch`: free, no value can be
proved of it. "A model must treat an unspecified value as 'no value': it must not pick zero" (10_state.md R39; U4).
DESIGN CHOICE of form, logs 4 and 5. -/
opaque Config.freeBufByte (epoch p : Nat) : Byte

end Sys2Proof
end

