-- ==== Sys2Proof/Syntax.lean ====
section
/-! DEFINITION. The commands of SHA256-CORE, one constructor for each row of spec/opcode_table.json, and the form in
which a command stands on the port (30_encoding.md R70 to R74). -/

namespace Sys2Proof

/-- The four host commands (30_encoding.md R72). Micro-operations have no encoding and no constructor (R78). -/
inductive Instr where
  /-- INIT: construct with the default initial state (43_construct.md R140). -/
  | init
  /-- INIT_IV: construct with the eight words sampled from `iv_in` (43_construct.md R141). -/
  | initIv (iv : HashState)
  /-- APPEND: absorb one message byte (44_append.md R151). -/
  | append (byte : Byte)
  /-- FINALIZE: pad, compress, present the digest (45_finalize.md R163). -/
  | finalize
  deriving DecidableEq, Repr

/-- A command as it stands on the port at the moment it is accepted: the command word `cmd[9:0]` and the side operand
`iv_in[255:0]` (30_encoding.md R70, R82). -/
structure Transfer where
  cmd  : BitVec 10
  ivIn : BitVec 256
  deriving DecidableEq, Repr

/-- A row of the opcode table: a word `c` matches when `c AND mask = pat` (30_encoding.md R72). -/
structure OpcodeRow where
  pat  : BitVec 10
  mask : BitVec 10
  deriving DecidableEq, Repr

end Sys2Proof
end

