-- ==== Sys2Proof/Machine/State.lean ====
section
/-! DEFINITION. The state of one instance of SHA256-CORE as plain data (10_state.md R20), the port state held between
commands (30_encoding.md R70, R82), and the state right after hardware reset (10_state.md R39). -/

namespace Sys2Proof.Machine

/-- `PHASE`: 0 = ACCEPTING, 1 = FINALIZED (10_state.md R27). -/
inductive Phase where
  | accepting
  | finalized
  deriving DecidableEq, Repr

/-- The response to a command, one of three codes; 0b11 is never produced (30_encoding.md R75; U7). -/
inductive Response where
  /-- 0b00. -/
  | ok
  /-- 0b01. -/
  | protocolViolation
  /-- 0b10. -/
  | lengthOverflow
  deriving DecidableEq, Repr

/-- What the host holds on its output pins at one moment at which the core looks at them (30_encoding.md R70). -/
structure PortSample where
  rst      : Bool
  cmdValid : Bool
  cmd      : BitVec 10
  ivIn     : BitVec 256
  deriving DecidableEq, Repr

/-- The bytes of `BUF` that have been written, as (index, byte) pairs, indices strictly rising. An index that is not
listed holds no value the spec gives (10_state.md R39), so no value is left out of the list as a default: equal
buffers are equal lists. -/
abbrev Memory := List Host.Cell

/-- One instance's state (10_state.md R20), its port state, and one counter of the model's own. The transient registers
of R20 are local to COMPRESS and FINALIZE (D22, log 6). -/
@[ext]
structure State where
  /-- `H[0..7]`, the state accumulator (R21). -/
  h : HashState
  /-- `BUF[0..63]`, the pending-block buffer (R25). -/
  buf : Memory
  /-- `BUFLEN`, bytes of the next block already in `BUF` (R25). -/
  bufLen : BitVec 6
  /-- `BITLEN`, bits already compressed (R26). -/
  bitLen : BitVec 64
  /-- `PHASE` (R27). -/
  phase : Phase
  /-- `ERR_PROTOCOL`, sticky (R28). -/
  errProtocol : Bool
  /-- `LEN_OVF`, sticky (R29). -/
  lenOvf : Bool
  /-- The response on `rsp_code`; `none` is `rsp_valid` = 0 (30_encoding.md R70, R75, R82). -/
  rsp : Option Response
  /-- What the host will hold on the input pins, next sample first; empty: the host drives nothing (log 1). -/
  inputs : List PortSample
  /-- The model's own: hardware resets so far, the first argument of `Config.freeBufByte` (log 5). -/
  bufEpoch : Nat
  deriving DecidableEq, Repr

/-- What a sample of the input pins asks the core to do. -/
inductive Sampled where
  | idle
  | reset
  | command (t : Transfer)
  deriving DecidableEq, Repr

/-- No step stops the machine: "every command terminates", "`step` is a total function" (70_reset_and_hazards.md R209;
log 11). The two error conditions of 60_exceptions.md R180 are next states. -/
inductive Fault where
  deriving DecidableEq, Repr

/-- Why a step has no meaning. -/
inductive Refusal where
  /-- An instruction that has not been given its meaning; raised by `exec`'s arm for it only. Safe: the machine stops
  where the hardware goes on. No arm raises it in this model. -/
  | notModelled (mnemonic : String)
  deriving DecidableEq, Repr

/-- The state right after hardware reset (10_state.md R39): the registers at the values of the table, no byte of `BUF`
with a value, no response pending. The host drives nothing (DESIGN CHOICE, log 1); the counter of free values starts at
0 (DESIGN CHOICE, log 5). -/
def State.reset : State where
  h := initialHash
  buf := []
  bufLen := 0#6
  bitLen := 0#64
  phase := .accepting
  errProtocol := false
  lenOvf := false
  rsp := none
  inputs := []
  bufEpoch := 0

end Sys2Proof.Machine
end

