-- ==== Sys2Proof/Machine/Flags.lean ====
section
/-! DEFINITION. The flags: the carry of the bit-length counter, the status word, the response code and the response a
command that was executed gives (40_word_functions.md R103; 30_encoding.md R75, R76). -/

namespace Sys2Proof.Machine

/-- `carry(BITLEN + 512)`: the true sum is 2^64 or more (00_scope.md R9; 40_word_functions.md R103). -/
def carry512 (bitLen : BitVec 64) : Bool := decide (2 ^ 64 ≤ bitLen.toNat + 512)

/-- `PHASE` as a bit: 0 = ACCEPTING, 1 = FINALIZED (10_state.md R27). -/
def phaseBit : Phase → Bool
  | .accepting => false
  | .finalized => true

/-- `status[2:0]` = {`LEN_OVF`, `ERR_PROTOCOL`, `PHASE`} (10_state.md R31; 30_encoding.md R76). -/
def State.status (s : State) : BitVec 3 :=
  BitVec.ofBool s.lenOvf ++ BitVec.ofBool s.errProtocol ++ BitVec.ofBool (phaseBit s.phase)

/-- `rsp_code[1:0]` of a response (30_encoding.md R75). -/
def responseCode : Response → BitVec 2
  | .ok => 0b00#2
  | .protocolViolation => 0b01#2
  | .lengthOverflow => 0b10#2

/-- `rsp_valid` (30_encoding.md R82). -/
def State.rspValid (s : State) : Bool := s.rsp.isSome

/-- `rsp_code[1:0]`, a value only while `rsp_valid` = 1 (30_encoding.md R70, R82; log 8). -/
def State.rspCode (s : State) : Option (BitVec 2) := s.rsp.map responseCode

/-- `cmd_ready`: 1 between commands, and commands are atomic here, so 1 in every state (30_encoding.md R82;
00_scope.md R12). -/
def State.cmdReady (_s : State) : Bool := true

/-- The response of a command that was executed, from `LEN_OVF` after the command (30_encoding.md R75). -/
def executedResponse (lenOvf : Bool) : Response := if lenOvf then .lengthOverflow else .ok

end Sys2Proof.Machine
end

