-- ==== Sys2Proof/WellFormed.lean ====
section
/-! DEFINITION. Well-formedness. The operand types of `Instr` are exact (a byte, eight words), every operand value is
legal (30_encoding.md R73; D23) and no encoding is reserved (R74), so every instruction is well formed. What can be
ill formed is a transfer that is not in canonical form: ignored wires that are not zero (R74). -/

namespace Sys2Proof

/-- Every instruction is well formed: "every value 0x00 to 0xff is legal", "every 256-bit value is legal"
(30_encoding.md R73). -/
def Instr.wf : Instr → Bool
  | .init => true
  | .initIv _ => true
  | .append _ => true
  | .finalize => true

/-- A format N word without side operand has ignored bits `cmd[7:0]`; the canonical encoding has them zero
(30_encoding.md R74). Format B (op 10, APPEND) has no ignored bit in its word. -/
def Transfer.wordCanonical (t : Transfer) : Bool :=
  t.cmd.extractLsb' 8 2 == 2#2 || t.cmd.extractLsb' 0 8 == 0#8

/-- `iv_in` is ignored by every command but INIT_IV (op 01); canonically it is then zero (30_encoding.md R74). -/
def Transfer.ivCanonical (t : Transfer) : Bool :=
  t.cmd.extractLsb' 8 2 == 1#2 || t.ivIn == 0#256

/-- The canonical form of a transfer: every ignored wire is zero (30_encoding.md R74). -/
def Transfer.canonical (t : Transfer) : Bool :=
  t.wordCanonical && t.ivCanonical

end Sys2Proof
end

