-- ==== Sys2Proof/Decode.lean ====
section
/-! DEFINITION. The decoder, total on every transfer (30_encoding.md R74: "every 10-bit word decodes to exactly one
command"), so there is no encoding to reject; then the encoder, from the same tables, and the host's entry point
`decodeTableWord`. Fields are pulled out here and nowhere else. -/

namespace Sys2Proof

/-- The operation code `cmd[9:8]` (30_encoding.md R71). -/
def opField (c : BitVec 10) : BitVec 2 := c.extractLsb' 8 2

/-- The low byte `cmd[7:0]`: APPEND's operand, ignored in format N (30_encoding.md R71, R73). -/
def byteField (c : BitVec 10) : Byte := c.extractLsb' 0 8

/-- Word `k` of a 256-bit port, `port[255-32k : 224-32k]`, `k` = 0..7 (20_memory.md R55). -/
def portWord (port : BitVec 256) (k : Nat) : Word := port.extractLsb' (224 - 32 * k) 32

/-- The eight words on a 256-bit port, word 0 on top (20_memory.md R55). -/
def portWords (port : BitVec 256) : HashState :=
  ⟨portWord port 0, portWord port 1, portWord port 2, portWord port 3,
   portWord port 4, portWord port 5, portWord port 6, portWord port 7⟩

/-- Eight words laid on a 256-bit port, word 0 in the most significant position (20_memory.md R55); it serves `iv_in`
and `h_out` alike. -/
def packWords (h : HashState) : BitVec 256 :=
  h.h0 ++ h.h1 ++ h.h2 ++ h.h3 ++ h.h4 ++ h.h5 ++ h.h6 ++ h.h7

/-- The opcode table's rows (30_encoding.md R72): INIT, INIT_IV, APPEND, FINALIZE. -/
def opcodeRow : Instr → OpcodeRow
  | .init => ⟨0x000#10, 0x300#10⟩
  | .initIv _ => ⟨0x100#10, 0x300#10⟩
  | .append _ => ⟨0x200#10, 0x300#10⟩
  | .finalize => ⟨0x300#10, 0x300#10⟩

/-- A word matches a row when its masked bits are the row's (30_encoding.md R72). -/
def rowMatches (r : OpcodeRow) (c : BitVec 10) : Bool := c &&& r.mask == r.pat

/-- Operation codes 00 INIT, 01 INIT_IV, 10 APPEND, 11 FINALIZE (30_encoding.md R72), with the operands of R73. The
two-bit field is full, so the last branch is op 11 and nothing else. -/
def decode (t : Transfer) : Instr :=
  if opField t.cmd = 0b00#2 then .init
  else if opField t.cmd = 0b01#2 then .initIv (portWords t.ivIn)
  else if opField t.cmd = 0b10#2 then .append (byteField t.cmd)
  else .finalize

/-- The canonical transfer of a command: op above the byte, ignored wires zero (30_encoding.md R71 to R74). -/
def encode : Instr → Transfer
  | .init => ⟨0b00#2 ++ 0#8, 0#256⟩
  | .initIv iv => ⟨0b01#2 ++ 0#8, packWords iv⟩
  | .append byte => ⟨0b10#2 ++ byte, 0#256⟩
  | .finalize => ⟨0b11#2 ++ 0#8, 0#256⟩

/-- An opcode-table number on the port: its bits 9:0 on the ten wires of `cmd`, no wire for any higher bit, and zero on
`iv_in`, to which the table gives no bits. DESIGN CHOICE, log 3. -/
def transferOfTableWord (_nbits w : Nat) : Transfer := ⟨BitVec.ofNat 10 w, 0#256⟩

/-- What the decoder reads from a table number; it never answers `none`, since every word decodes
(30_encoding.md R74). -/
def decodeTableWord (nbits w : Nat) : Option Instr := some (decode (transferOfTableWord nbits w))

end Sys2Proof
end

