-- ==== Sys2Proof/Machine/Operands.lean ====
section
/-! DEFINITION. The values FINALIZE computes before its first PUSH (TOTAL, z, the padding bytes) and the serialised
accumulator on `h_out` (40_word_functions.md R104; 45_finalize.md R160 to R164; 20_memory.md R53 to R55). -/

namespace Sys2Proof.Machine

/-- `be32(w)`: the four bytes of a word, most significant first (00_scope.md R10). -/
def be32 (w : Word) : List Byte :=
  [w.extractLsb' 24 8, w.extractLsb' 16 8, w.extractLsb' 8 8, w.extractLsb' 0 8]

/-- `be64(v)`: the eight bytes of a 64-bit value, most significant first (00_scope.md R10; 20_memory.md R53). -/
def be64 (v : BitVec 64) : List Byte :=
  [v.extractLsb' 56 8, v.extractLsb' 48 8, v.extractLsb' 40 8, v.extractLsb' 32 8,
   v.extractLsb' 24 8, v.extractLsb' 16 8, v.extractLsb' 8 8, v.extractLsb' 0 8]

/-- `H[k]`, `k` = 0..7 (10_state.md R21). -/
def hashWord (h : HashState) (k : Fin 8) : Word :=
  match k with
  | 0 => h.h0
  | 1 => h.h1
  | 2 => h.h2
  | 3 => h.h3
  | 4 => h.h4
  | 5 => h.h5
  | 6 => h.h6
  | 7 => h.h7

/-- SERIALIZE(`H`): 32 bytes, `be32(H[0])` first (45_finalize.md R164; 20_memory.md R54). -/
def serialize (h : HashState) : List Byte :=
  be32 h.h0 ++ be32 h.h1 ++ be32 h.h2 ++ be32 h.h3 ++ be32 h.h4 ++ be32 h.h5 ++ be32 h.h6 ++ be32 h.h7

/-- `h_out[255:0]`, whenever the core is ready: `h_out[255-32k : 224-32k] = H[k]` (20_memory.md R55; 30_encoding.md
R77). -/
def State.hOut (s : State) : BitVec 256 := packWords s.h

/-- `TOTAL = BITLEN + 8*BUFLEN`: `BUFLEN` shifted left by 3 into a 64-bit value (40_word_functions.md R104;
45_finalize.md R160). -/
def State.totalBits (s : State) : BitVec 64 := s.bitLen + (s.bufLen.setWidth 64 <<< 3)

/-- `z`, the number of zero padding bytes, from `BUFLEN` as it stands when FINALIZE starts (45_finalize.md R161). -/
def zeroCount (len : BitVec 6) : Nat :=
  if len.toNat < 56 then 55 - len.toNat else 119 - len.toNat

/-- The padding bytes in order: 0x80, `z` zeros, the eight bytes of TOTAL, most significant first (45_finalize.md
R162). -/
def padding (total : BitVec 64) (z : Nat) : List Byte :=
  0x80#8 :: (List.replicate z 0x00#8 ++ be64 total)

end Sys2Proof.Machine
end

