-- ==== Sys2Proof/Machine/Ops.lean ====
section
/-! DEFINITION. The shared operations over the state: `BUF` accesses, PUSH, construction, the refusal of a command
(ProtocolViolation), completion of a command, hardware reset, and taking a sample of the input pins. -/

namespace Sys2Proof.Machine

/-! ## The block buffer -/

/-- The byte listed at index `p`, if one has been written. -/
def Memory.read? : Memory → Nat → Option Byte
  | [], _ => none
  | (a, v) :: m, p => if a = p then some v else Memory.read? m p

/-- `MemWrite(p, 1, v)` (00_scope.md R10), keeping the indices strictly rising. An unlisted index has no value, so no
write removes an entry. -/
def Memory.write : Memory → Nat → Byte → Memory
  | [], p, v => [(p, v)]
  | (a, x) :: m, p, v =>
    if p < a then (p, v) :: (a, x) :: m
    else if p = a then (p, v) :: m
    else (a, x) :: Memory.write m p v

/-- Indices strictly rising from `lo` on, and below 64. -/
def Memory.risingFrom : Nat → Memory → Bool
  | _, [] => true
  | lo, (a, _) :: m => decide (lo ≤ a) && decide (a < 64) && Memory.risingFrom (a + 1) m

/-- The canonical form of the buffer: indices strictly rising, each of 0..63 (20_memory.md R50). -/
def Memory.wf (m : Memory) : Bool := Memory.risingFrom 0 m

/-- `BUF[p]`: the byte written last, or, where nothing has been written since the last hardware reset, a free value
(10_state.md R39, U4; log 4). -/
def State.bufByte (s : State) (p : Nat) : Byte :=
  (Memory.read? s.buf p).getD (Config.freeBufByte s.bufEpoch p)

/-- `BUF[0..63]` as the block W_LOAD reads (41_schedule.md R110). -/
def State.block (s : State) : Block := fun p => s.bufByte p.toNat

/-- `BUF[BUFLEN] <- x` (44_append.md R150). -/
def State.writeBuf (s : State) (x : Byte) : State :=
  { s with buf := Memory.write s.buf s.bufLen.toNat x }

/-! ## PUSH -/

/-- The part of PUSH that happens when the byte just written is the 64th: COMPRESS on `BUF[0..63]`, `BITLEN + 512`
modulo 2^64, `BUFLEN <- 0` (44_append.md R150). -/
def State.absorbBlock (s : State) : State :=
  { s with h := compress s.h s.block, bitLen := s.bitLen + 512#64, bufLen := 0#6 }

/-- PUSH(`x`) with its result `wrapped` (44_append.md R150). -/
def push (x : Byte) (s : State) : State × Bool :=
  if s.bufLen = 63#6 then ((s.writeBuf x).absorbBlock, carry512 s.bitLen)
  else ({ s.writeBuf x with bufLen := s.bufLen + 1#6 }, false)

/-- PUSH of several bytes in order, every `wrapped` discarded, as FINALIZE does it (45_finalize.md R163, R169). -/
def pushAll (xs : List Byte) (s : State) : State :=
  xs.foldl (fun s x => (push x s).1) s

/-! ## Construction, refusal, completion -/

/-- Construction with initial state `h` (43_construct.md R140, R141): `BUF` is not written; every flag is cleared; the
response is OK. -/
def State.construct (s : State) (h : HashState) : State :=
  { s with h := h, bitLen := 0#64, bufLen := 0#6, phase := .accepting, errProtocol := false, lenOvf := false,
           rsp := some .ok }

/-- Taking ProtocolViolation (60_exceptions.md R181, R186): the sticky flag and the response, nothing else. Nothing is
saved and control goes nowhere. There is no return from it: R187. -/
def State.rejectCommand (s : State) : State :=
  { s with errProtocol := true, rsp := some .protocolViolation }

/-- Completion of a command that was executed: the response from `LEN_OVF` as it stands (30_encoding.md R75, R82). -/
def State.complete (s : State) : State :=
  { s with rsp := some (executedResponse s.lenOvf) }

/-- Taking LengthOverflow: the sticky flag is set when the PUSH wrapped, and never cleared here (44_append.md R151;
60_exceptions.md R182). -/
def State.noteWrap (s : State) (wrapped : Bool) : State :=
  { s with lenOvf := s.lenOvf || wrapped }

/-! ## Reset and the input pins -/

/-- Hardware reset (70_reset_and_hazards.md R200, R203): the reset state, whatever was going on. The host's later inputs
are not the core's and stay; `BUF` holds no value from before that the spec gives (R39), so the free values are new
ones (log 5). -/
def State.hardwareReset (s : State) : State :=
  { State.reset with inputs := s.inputs, bufEpoch := s.bufEpoch + 1 }

/-- What a sample of the pins asks for: `rst` outranks everything (60_exceptions.md R185, 70_reset_and_hazards.md R203);
a command is accepted when `cmd_valid` and `cmd_ready` are both 1, and `cmd_ready` is 1 between commands
(30_encoding.md R82). -/
def PortSample.request (p : PortSample) : Sampled :=
  if p.rst then .reset
  else if p.cmdValid then .command ⟨p.cmd, p.ivIn⟩
  else .idle

/-- The request of the next sample; a host that drives nothing asks for nothing (log 1). -/
def State.nextRequest (s : State) : Sampled :=
  match s.inputs with
  | [] => .idle
  | p :: _ => p.request

/-- The state once that sample has been taken. -/
def State.dropInput (s : State) : State := { s with inputs := s.inputs.tail }

/-- A transfer as the host presents it: `cmd_valid` = 1, `rst` = 0. -/
def presentTransfer (t : Transfer) : PortSample :=
  { rst := false, cmdValid := true, cmd := t.cmd, ivIn := t.ivIn }

/-- The state in which the host presents transfer `t` next. -/
def State.offer (s : State) (t : Transfer) : State :=
  { s with inputs := presentTransfer t :: s.inputs }

end Sys2Proof.Machine
end

