-- ==== Sys2Proof/Machine/Append.lean ====
section
/-! DEFINITION. The command APPEND (44_append.md). -/

namespace Sys2Proof.Machine

/-- An APPEND that is accepted: PUSH, the wrap noted in `LEN_OVF`, then the response (44_append.md R151). -/
def State.acceptByte (s : State) (byte : Byte) : State :=
  ((push byte s).1.noteWrap (push byte s).2).complete

/-- APPEND `byte`: rejected when FINALIZED, checked before any state is touched (44_append.md R151;
60_exceptions.md R181). -/
def execAppend (byte : Byte) (s : State) : Host.Outcome State Fault Refusal :=
  match s.phase with
  | .finalized => .next s.rejectCommand
  | .accepting => .next (s.acceptByte byte)

end Sys2Proof.Machine
end

