-- ==== Sys2Proof/Machine/Construct.lean ====
section
/-! DEFINITION. The construction commands INIT and INIT_IV (43_construct.md). -/

namespace Sys2Proof.Machine

/-- INIT, accepted in every phase (43_construct.md R140). -/
def execInit (s : State) : Host.Outcome State Fault Refusal :=
  .next (s.construct initialHash)

/-- INIT_IV, accepted in every phase, every operand legal (43_construct.md R141). -/
def execInitIv (iv : HashState) (s : State) : Host.Outcome State Fault Refusal :=
  .next (s.construct iv)

end Sys2Proof.Machine
end

