-- ==== Sys2Proof/Machine/Finalize.lean ====
section
/-! DEFINITION. The command FINALIZE (45_finalize.md). -/

namespace Sys2Proof.Machine

/-- A FINALIZE that is accepted: TOTAL and `z` are taken from the state before the first PUSH; the padding goes through
PUSH with every `wrapped` discarded; `PHASE` is set last; `LEN_OVF` is read for the response and never written
(45_finalize.md R163, R169). -/
def State.finalizeMessage (s : State) : State :=
  { pushAll (padding s.totalBits (zeroCount s.bufLen)) s with phase := .finalized }.complete

/-- FINALIZE: rejected when FINALIZED, checked first (45_finalize.md R163; 60_exceptions.md R181). -/
def execFinalize (s : State) : Host.Outcome State Fault Refusal :=
  match s.phase with
  | .finalized => .next s.rejectCommand
  | .accepting => .next s.finalizeMessage

end Sys2Proof.Machine
end

