-- ==== Sys2Proof/Machine/Dispatch.lean ====
section
/-! DEFINITION. One arm for each command (30_encoding.md R72). -/

namespace Sys2Proof.Machine

def exec (i : Instr) (s : State) : Host.Outcome State Fault Refusal :=
  match i with
  | .init => Sys2Proof.Machine.execInit s
  | .initIv iv => Sys2Proof.Machine.execInitIv iv s
  | .append byte => Sys2Proof.Machine.execAppend byte s
  | .finalize => Sys2Proof.Machine.execFinalize s

end Sys2Proof.Machine
end

