-- ==== Sys2Proof/Machine/Step.lean ====
section
/-! DEFINITION. One step: one sample of the input pins is taken and what it asks for is done, a command being one atomic
transition (00_scope.md R12; 30_encoding.md R82). -/

namespace Sys2Proof.Machine

/-- One step of the core (00_scope.md R12; 30_encoding.md R82; 70_reset_and_hazards.md R203). -/
def step (s : State) : Host.Outcome State Fault Refusal :=
  match s.nextRequest with
  | .idle => .next s.dropInput
  | .reset => .next s.dropInput.hardwareReset
  | .command t => exec (decode t) s.dropInput

/-- The state in which the host presents the opcode-table number `w` next (logs 2, 3). -/
def State.withFetchWord (s : State) (nbits w : Nat) : State :=
  s.offer (transferOfTableWord nbits w)

end Sys2Proof.Machine
end

