-- ==== Sys2Proof/Machine/Reference.lean ====
section
/-! DEFINITION. The vocabulary of claims about whole messages: command sequences and the pseudo-instructions
(20_memory.md R60; 30_encoding.md R80), and the hash function as padding, folding COMPRESS over blocks, and serialising
(44_append.md R154; 45_finalize.md R162, R167). The machine does not use this file. -/

namespace Sys2Proof.Machine

/-- The state after a command sequence: "the left fold of the command rules over the sequence" (20_memory.md R60). -/
def runCommands : List Instr → State → Host.Outcome State Fault Refusal
  | [], s => .next s
  | i :: is, s =>
    match exec i s with
    | .next t => runCommands is t
    | .fault r => .fault r
    | .refused r => .refused r

/-- A command as the host presents it, in its canonical encoding (30_encoding.md R74, R82). -/
def presentCommand (i : Instr) : PortSample := presentTransfer (encode i)

/-- APPENDS (30_encoding.md R80). -/
def appends (bytes : List Byte) : List Instr := bytes.map Instr.append

/-- HASH (30_encoding.md R80). -/
def hashCommands (m : List Byte) : List Instr := Instr.init :: (appends m ++ [Instr.finalize])

/-- HASH_IV (30_encoding.md R80). -/
def hashIvCommands (iv : HashState) (m : List Byte) : List Instr :=
  Instr.initIv iv :: (appends m ++ [Instr.finalize])

/-- The 64 bytes of a block in index order. -/
def blockBytes (blk : Block) : List Byte := (List.range 64).map fun p => blk (BitVec.ofNat 6 p)

/-- COMPRESS_BLOCK (30_encoding.md R80). -/
def compressBlockCommands (iv : HashState) (blk : Block) : List Instr :=
  Instr.initIv iv :: appends (blockBytes blk)

/-- The `k`-th 64-byte block of a byte sequence (00_scope.md R6; 44_append.md R154). -/
def blockAt (m : List Byte) (k : Nat) : Block := fun p => m.getD (64 * k + p.toNat) 0#8

/-- COMPRESS folded over the first `n` blocks of `m` in order (44_append.md R154). -/
def foldBlocks (h : HashState) (m : List Byte) (n : Nat) : HashState :=
  (List.range n).foldl (fun h k => compress h (blockAt m k)) h

/-- The bytes of the next block that are already in `BUF`, in order (10_state.md R25). -/
def State.buffered (s : State) : List Byte := (List.range s.bufLen.toNat).map s.bufByte

/-- A message with its padding (45_finalize.md R162): the zero count from the bytes left over after whole blocks, the
length field the number of message bits modulo 2^64. -/
def padMessage (m : List Byte) : List Byte :=
  m ++ padding (BitVec.ofNat 64 (8 * m.length)) (zeroCount (BitVec.ofNat 6 m.length))

/-- The hash function the rules define, from initial state `iv`: pad, fold COMPRESS over the blocks
(45_finalize.md R167). -/
def hashFrom (iv : HashState) (m : List Byte) : HashState :=
  foldBlocks iv (padMessage m) ((padMessage m).length / 64)

end Sys2Proof.Machine
end

