-- ==== Sys2Proof/Safety.lean ====
section
/-! DEFINITION. What claims take for granted of a state: the invariant between commands (10_state.md R34, R35;
20_memory.md R65; and what ties the flags to the phase), and what makes the value on `h_out` a digest to be trusted
(60_exceptions.md R181, R182, R193). -/

namespace Sys2Proof.Machine

/-- What holds between any two commands, in either phase. -/
structure State.Inv (s : State) : Prop where
  /-- The buffer's list is in its canonical form. -/
  bufCanonical : Memory.wf s.buf = true
  /-- "`BITLEN mod 512 = 0`" (10_state.md R35). -/
  wholeBlocks : s.bitLen.toNat % 512 = 0
  /-- The bytes below `BUFLEN` have been written (20_memory.md R65). -/
  bufferedWritten : ∀ p, p < s.bufLen.toNat → (Memory.read? s.buf p).isSome = true
  /-- "After an accepted FINALIZE, `BUFLEN` = 0" (10_state.md R34). -/
  finalizedOnBoundary : s.phase = .finalized → s.bufLen = 0#6
  /-- A command is rejected only when FINALIZED, and whatever leaves that phase clears the flag (10_state.md R27,
  R28). -/
  errorOnlyFinalized : s.errProtocol = true → s.phase = .finalized
  /-- The pending response is the one the flags account for (30_encoding.md R75). -/
  responseAgrees :
    match s.rsp with
    | none => s.errProtocol = false ∧ s.lenOvf = false
    | some .ok => s.errProtocol = false ∧ s.lenOvf = false
    | some .lengthOverflow => s.errProtocol = false ∧ s.lenOvf = true
    | some .protocolViolation => s.errProtocol = true

/-- The value on `h_out` is a digest with no recorded misuse and no length overflow: `status` = 0b001
(60_exceptions.md R181, R182, R193). -/
def State.digestShown (s : State) : Bool := s.status == 0b001#3

end Sys2Proof.Machine
end

