-- ==== Sys2Proof/Certificates/Slice0/Obligations.lean ====
section
/-! DEFINITION. The statements for the provers, in the spec's order: reset and the step, encoding, word functions, the
schedule and the rounds, the length engine, the commands one by one, rules about the whole machine, whole messages. -/

open Sys2Proof Sys2Proof.Machine

/-! ## Reset and the step -/

/-- 10_state.md R39: the value of every register and output after hardware reset, no byte of `BUF` with a value, and
"Reset does what INIT does": INIT right after reset changes nothing but the response. -/
def Obligations.ResetHoldsTheValuesOfTheTable : Prop :=
  State.reset.h = ⟨0x6a09e667, 0xbb67ae85, 0x3c6ef372, 0xa54ff53a, 0x510e527f, 0x9b05688c, 0x1f83d9ab, 0x5be0cd19⟩ ∧
  State.reset.bufLen = 0#6 ∧ State.reset.bitLen = 0#64 ∧ State.reset.phase = .accepting ∧
  State.reset.errProtocol = false ∧ State.reset.lenOvf = false ∧
  State.reset.cmdReady = true ∧ State.reset.rspValid = false ∧ State.reset.status = 0b000#3 ∧
  State.reset.hOut = packWords initialHash ∧
  (∀ p, Memory.read? State.reset.buf p = none) ∧
  exec .init State.reset = .next { State.reset with rsp := some .ok }

/-- 70_reset_and_hazards.md R200, R203: with `rst` asserted the next state is the reset state, from every state and
whatever command stands on the port with it; no response is produced; the state is exactly the one INIT leaves but for
INIT's response. Three clauses are the model's choice: that the host's later inputs stay (its input list, log 1), that no
byte of `BUF` has a value afterwards, where R25 says that reset leaves `BUF` alone (log 5), and that a command on the
same sample is not run (log 7). -/
def Obligations.HardwareResetFromEveryState : Prop :=
  ∀ (s : State) (p : PortSample) (rest : List PortSample), s.inputs = p :: rest → p.rst = true →
    ∃ t, step s = .next t ∧ t.h = initialHash ∧ t.bufLen = 0#6 ∧ t.bitLen = 0#64 ∧ t.phase = .accepting ∧
      t.errProtocol = false ∧ t.lenOvf = false ∧ (∀ q, Memory.read? t.buf q = none) ∧
      t.cmdReady = true ∧ t.rspValid = false ∧ t.status = 0b000#3 ∧
      t.hOut = 0x6a09e667bb67ae853c6ef372a54ff53a510e527f9b05688c1f83d9ab5be0cd19#256 ∧
      t.inputs = rest ∧ exec .init t = .next { t with rsp := some .ok }

/-- 30_encoding.md R82, 00_scope.md R12: a step in which a command is accepted is that command's meaning, with the
sample taken; a step with `cmd_valid` = 0 and `rst` = 0 changes nothing else, and neither does one in which the host
drives nothing (the model's input list, log 1). -/
def Obligations.StepRunsTheAcceptedCommand : Prop :=
  (∀ (s : State) (p : PortSample) (rest : List PortSample),
    s.inputs = p :: rest → p.rst = false → p.cmdValid = true →
      step s = exec (decode ⟨p.cmd, p.ivIn⟩) { s with inputs := rest }) ∧
  (∀ (s : State) (p : PortSample) (rest : List PortSample),
    s.inputs = p :: rest → p.rst = false → p.cmdValid = false → step s = .next { s with inputs := rest }) ∧
  (∀ s : State, s.inputs = [] → step s = .next s)

/-- A table word placed by `withFetchWord` is the very next command, and running it leaves the other inputs in place
(the model's choice, logs 2 and 3). -/
def Obligations.FetchWordIsTheNextCommand : Prop :=
  ∀ (s : State) (nbits w : Nat), ∃ i, decodeTableWord nbits w = some i ∧ step (s.withFetchWord nbits w) = exec i s

/-- 70_reset_and_hazards.md R209: "`step` is a total function": from every state, reachable or not, a step and every
command answer a next state. -/
def Obligations.EveryStepAndEveryCommandCompletes : Prop :=
  (∀ s : State, ∃ t, step s = .next t) ∧ (∀ (i : Instr) (s : State), ∃ t, exec i s = .next t)

/-- 20_memory.md R60: running the machine while the host presents a command sequence is the left fold of the command
rules over the sequence. That the commands stand on a list of samples and that the host's later inputs stay is the
model's choice (log 1). -/
def Obligations.RunIsTheFoldOfTheCommands : Prop :=
  ∀ (is : List Instr) (s : State) (rest : List PortSample),
    Host.Core.run Sys2Proof.core is.length { s with inputs := is.map presentCommand ++ rest } =
      runCommands is { s with inputs := rest }

/-! ## Encoding -/

/-- Decoding the canonical encoding of any command gives it back, with every operand value: all 256 bytes, all 2^256
initial states; and the encoding is canonical. -/
def Obligations.DecodeOfEncodeIsTheCommand : Prop :=
  ∀ i : Instr, i.wf = true → decode (encode i) = i ∧ (encode i).canonical = true

/-- Each canonical transfer encodes the command it decodes to: 30_encoding.md R74, one canonical word for a command. -/
def Obligations.EncodeOfDecodeIsTheCanonicalTransfer : Prop :=
  ∀ t : Transfer, t.canonical = true → encode (decode t) = t

/-- 30_encoding.md R72, R73, R74: `cmd[9:8]` alone selects the command; APPEND's operand is `cmd[7:0]`, INIT_IV's the
eight words of `iv_in`; every other bit is ignored. -/
def Obligations.EveryWordDecodesByItsOpcode : Prop :=
  ∀ (c : BitVec 10) (iv : BitVec 256),
    (c.extractLsb' 8 2 = 0b00#2 → decode ⟨c, iv⟩ = .init) ∧
    (c.extractLsb' 8 2 = 0b01#2 → decode ⟨c, iv⟩ = .initIv
      ⟨iv.extractLsb' 224 32, iv.extractLsb' 192 32, iv.extractLsb' 160 32, iv.extractLsb' 128 32,
       iv.extractLsb' 96 32, iv.extractLsb' 64 32, iv.extractLsb' 32 32, iv.extractLsb' 0 32⟩) ∧
    (c.extractLsb' 8 2 = 0b10#2 → decode ⟨c, iv⟩ = .append (c.extractLsb' 0 8)) ∧
    (c.extractLsb' 8 2 = 0b11#2 → decode ⟨c, iv⟩ = .finalize)

/-- 30_encoding.md R72: the match and mask of each row of the opcode table select exactly the words that decode to its
command. -/
def Obligations.MatchAndMaskSelectTheCommand : Prop :=
  ∀ t : Transfer,
    (t.cmd &&& 0x300#10 = 0x000#10 ↔ decode t = .init) ∧
    (t.cmd &&& 0x300#10 = 0x100#10 ↔ ∃ iv, decode t = .initIv iv) ∧
    (t.cmd &&& 0x300#10 = 0x200#10 ↔ ∃ byte, decode t = .append byte) ∧
    (t.cmd &&& 0x300#10 = 0x300#10 ↔ decode t = .finalize)

/-- The encoding examples of 30_encoding.md R81, the words written out. -/
def Obligations.EncodingExamplesDecode : Prop :=
  decode ⟨0x000, 0⟩ = .init ∧ decode ⟨0x261, 0⟩ = .append 0x61 ∧ decode ⟨0x200, 0⟩ = .append 0x00 ∧
  decode ⟨0x2ff, 0⟩ = .append 0xff ∧ decode ⟨0x300, 0⟩ = .finalize ∧
  decode ⟨0x100, 0⟩ = .initIv ⟨0, 0, 0, 0, 0, 0, 0, 0⟩ ∧
  decode ⟨0x0aa, 0⟩ = .init ∧ decode ⟨0x1ff, 0⟩ = .initIv ⟨0, 0, 0, 0, 0, 0, 0, 0⟩ ∧ decode ⟨0x3ff, 0⟩ = .finalize

/-! ## Word functions -/

/-- 40_word_functions.md R92: "bit `m` of the result is bit `(m + n) mod 32` of `x`", and rotating by `32-n` more gives
`x` back, for every `n` = 1..31. -/
def Obligations.RotrMovesEveryBitRound : Prop :=
  ∀ (x : Word) (n : Nat), 1 ≤ n → n ≤ 31 →
    (∀ m, m < 32 → (rotr x n).getLsbD m = x.getLsbD ((m + n) % 32)) ∧ rotr (rotr x n) (32 - n) = x

/-- 40_word_functions.md R93: the logical shift is `floor(x / 2^n)`, the top `n` bits zero. -/
def Obligations.ShrDividesByAPowerOfTwo : Prop :=
  ∀ (x : Word) (n : Nat), (shr x n).toNat = x.toNat / 2 ^ n ∧ ∀ m, 32 ≤ m + n → (shr x n).getLsbD m = false

/-- 40_word_functions.md R94 to R97, bit by bit: which three bits of the word each result bit is the XOR of. -/
def Obligations.SigmaFunctionsBitByBit : Prop :=
  ∀ (x : Word) (m : Nat), m < 32 →
    (ssig0 x).getLsbD m =
      (x.getLsbD ((m + 7) % 32) ^^ x.getLsbD ((m + 18) % 32) ^^ (decide (m + 3 < 32) && x.getLsbD (m + 3))) ∧
    (ssig1 x).getLsbD m =
      (x.getLsbD ((m + 17) % 32) ^^ x.getLsbD ((m + 19) % 32) ^^ (decide (m + 10 < 32) && x.getLsbD (m + 10))) ∧
    (bsig0 x).getLsbD m =
      (x.getLsbD ((m + 2) % 32) ^^ x.getLsbD ((m + 13) % 32) ^^ x.getLsbD ((m + 22) % 32)) ∧
    (bsig1 x).getLsbD m =
      (x.getLsbD ((m + 6) % 32) ^^ x.getLsbD ((m + 11) % 32) ^^ x.getLsbD ((m + 25) % 32))

/-- 40_word_functions.md R98, R99, bit by bit: `ch` selects the bit of `f` where `e` is 1 and of `g` where it is 0;
`maj` is the majority of the three bits and symmetric in its operands. -/
def Obligations.ChSelectsAndMajIsTheMajority : Prop :=
  (∀ (e f g : Word) (m : Nat), m < 32 →
    (ch e f g).getLsbD m = if e.getLsbD m then f.getLsbD m else g.getLsbD m) ∧
  (∀ (a b c : Word) (m : Nat), m < 32 →
    (maj a b c).getLsbD m =
      decide (2 ≤ (a.getLsbD m).toNat + (b.getLsbD m).toNat + (c.getLsbD m).toNat)) ∧
  (∀ a b c : Word, maj a b c = maj b a c ∧ maj a b c = maj a c b)

/-! ## The constant tables -/

/-- 10_state.md R24, R21: there are 64 round constants, `K[i]` being the first 32 bits of the fractional part of the cube
root of the `i`-th prime 2, 3, 5, ..., 311; and `IV[k]` those of the square root of the `k`-th prime. -/
def Obligations.ConstantTablesAreRootsOfThePrimes : Prop :=
  roundConstants.length = 64 ∧
  (∀ i, i < 64 → ∃ q, (q * 2 ^ 32 + (kWord i).toNat) ^ 3 ≤ Nat.nth Nat.Prime i * 2 ^ 96 ∧
    Nat.nth Nat.Prime i * 2 ^ 96 < (q * 2 ^ 32 + (kWord i).toNat + 1) ^ 3) ∧
  (∀ k : Fin 8, ∃ q, (q * 2 ^ 32 + (hashWord initialHash k).toNat) ^ 2 ≤ Nat.nth Nat.Prime k * 2 ^ 64 ∧
    Nat.nth Nat.Prime k * 2 ^ 64 < (q * 2 ^ 32 + (hashWord initialHash k).toNat + 1) ^ 2)

/-! ## Schedule, rounds, COMPRESS -/

/-- 41_schedule.md R110, R111, R112 with 20_memory.md R52: 64 words; the first sixteen are the block's big-endian words;
each later one is the recurrence over the finished schedule. -/
def Obligations.ScheduleIsLoadedAndExtended : Prop :=
  ∀ blk : Block, (schedule blk).length = 64 ∧
    (∀ j, j < 16 → (wWord (schedule blk) j).toNat =
      (blk (BitVec.ofNat 6 (4 * j))).toNat * 2 ^ 24 + (blk (BitVec.ofNat 6 (4 * j + 1))).toNat * 2 ^ 16 +
      (blk (BitVec.ofNat 6 (4 * j + 2))).toNat * 2 ^ 8 + (blk (BitVec.ofNat 6 (4 * j + 3))).toNat) ∧
    (∀ i, 16 ≤ i → i < 64 → wWord (schedule blk) i =
      wWord (schedule blk) (i - 16) + ssig0 (wWord (schedule blk) (i - 15)) +
      wWord (schedule blk) (i - 7) + ssig1 (wWord (schedule blk) (i - 2)))

/-- 42_compress.md R121, R122: the eight working variables after a round, from the old values. -/
def Obligations.RoundAssignsAllEightTogether : Prop :=
  ∀ (v : WorkVars) (k w : Word),
    (round v k w).a = (v.h + (rotr v.e 6 ^^^ rotr v.e 11 ^^^ rotr v.e 25) + ((v.e &&& v.f) ^^^ (~~~v.e &&& v.g)) + k + w)
      + ((rotr v.a 2 ^^^ rotr v.a 13 ^^^ rotr v.a 22) + ((v.a &&& v.b) ^^^ (v.a &&& v.c) ^^^ (v.b &&& v.c))) ∧
    (round v k w).b = v.a ∧ (round v k w).c = v.b ∧ (round v k w).d = v.c ∧
    (round v k w).e = v.d +
      (v.h + (rotr v.e 6 ^^^ rotr v.e 11 ^^^ rotr v.e 25) + ((v.e &&& v.f) ^^^ (~~~v.e &&& v.g)) + k + w) ∧
    (round v k w).f = v.e ∧ (round v k w).g = v.f ∧ (round v k w).h = v.g

/-- 42_compress.md R120, R123, R124, R125: WV_INIT loads the image of `H`; whatever sequence starts there and takes
round `i` with `K[i]` and `W[i]` for `i` = 0..63, the round loop follows it after every number of rounds, and COMPRESS
adds its 64th element back into `H` word by word. -/
def Obligations.CompressAddsTheLastRoundBack : Prop :=
  ∀ (h : HashState) (blk : Block) (v : Nat → WorkVars),
    v 0 = ⟨h.h0, h.h1, h.h2, h.h3, h.h4, h.h5, h.h6, h.h7⟩ →
    (∀ i, i < 64 → v (i + 1) = round (v i) (kWord i) (wWord (schedule blk) i)) →
    (∀ n, n ≤ 64 → rounds (schedule blk) n (wvInit h) = v n) ∧
    compress h blk =
      ⟨h.h0 + (v 64).a, h.h1 + (v 64).b, h.h2 + (v 64).c, h.h3 + (v 64).d,
       h.h4 + (v 64).e, h.h5 + (v 64).f, h.h6 + (v 64).g, h.h7 + (v 64).h⟩

/-! ## The length engine and the outputs -/

/-- 40_word_functions.md R103: for a multiple of 512 the carry of `BITLEN + 512` is 1 exactly at 2^64 - 512, and the new
value is then 0; otherwise the sum is exact. -/
def Obligations.BitLenCarriesExactlyAtTheTop : Prop :=
  ∀ n : BitVec 64, n.toNat % 512 = 0 →
    (carry512 n = true ↔ n = 0xfffffffffffffe00#64) ∧ (carry512 n = true → n + 512#64 = 0#64) ∧
    (carry512 n = false → (n + 512#64).toNat = n.toNat + 512)

/-- 40_word_functions.md R104: with `BITLEN` a multiple of 512, TOTAL is exact, never carries, and is
`{BITLEN[63:9], BUFLEN[5:0], 0b000}`. -/
def Obligations.TotalIsExactAndIsAConcatenation : Prop :=
  ∀ s : State, s.bitLen.toNat % 512 = 0 →
    s.totalBits.toNat = s.bitLen.toNat + 8 * s.bufLen.toNat ∧
    s.totalBits = s.bitLen.extractLsb' 9 55 ++ s.bufLen ++ 0b000#3

/-- 45_finalize.md R161, R162 and the count of R165: the zeros reach offset 56 of a block and no further, and the
padding fills one block when fewer than 56 bytes are buffered and two otherwise; its first byte is 0x80, then `z` zeros,
then the bytes of TOTAL, most significant first. -/
def Obligations.PaddingEndsOnABlockBoundary : Prop :=
  ∀ (total : BitVec 64) (len : BitVec 6),
    zeroCount len ≤ 63 ∧ (len.toNat + 1 + zeroCount len) % 64 = 56 ∧
    len.toNat + (padding total (zeroCount len)).length = (if len.toNat < 56 then 64 else 128) ∧
    (padding total (zeroCount len))[0]? = some 0x80#8 ∧
    (∀ n, n < zeroCount len → (padding total (zeroCount len))[n + 1]? = some 0x00#8) ∧
    (∀ n, n < 8 → (padding total (zeroCount len))[zeroCount len + 1 + n]? = some (total.extractLsb' (56 - 8 * n) 8))

/-- 20_memory.md R54, R55, 45_finalize.md R164, 30_encoding.md R77: the digest bytes, big-endian word by word, and their
places on `h_out`. -/
def Obligations.DigestBytesStandOnHOut : Prop :=
  ∀ s : State, (serialize s.h).length = 32 ∧
    ∀ (k : Fin 8) (m : Nat), m < 4 →
      (serialize s.h)[4 * k.val + m]? = some ((hashWord s.h k).extractLsb' (24 - 8 * m) 8) ∧
      s.hOut.extractLsb' (248 - 8 * (4 * k.val + m)) 8 = (hashWord s.h k).extractLsb' (24 - 8 * m) 8 ∧
      s.hOut.extractLsb' (224 - 32 * k.val) 32 = hashWord s.h k

/-- 30_encoding.md R76, 10_state.md R31: the three status bits. -/
def Obligations.StatusWordShowsTheThreeFlags : Prop :=
  ∀ s : State, (s.status.getLsbD 0 = true ↔ s.phase = .finalized) ∧ s.status.getLsbD 1 = s.errProtocol ∧
    s.status.getLsbD 2 = s.lenOvf

/-! ## The block buffer -/

/-- `BUF` as storage: a write is read back at its index and nowhere else, and keeps the canonical form
(00_scope.md R10 MemWrite; 20_memory.md R50, R57). -/
def Obligations.BufferWriteIsReadBackThereAndOnlyThere : Prop :=
  ∀ (m : Memory) (p : Nat) (v : Byte),
    (∀ q, Memory.read? (Memory.write m p v) q = if q = p then some v else Memory.read? m q) ∧
    (p < 64 → Memory.wf m = true → Memory.wf (Memory.write m p v) = true)

/-- Two buffers in canonical form that read alike at every index are the same list (the model's own form of `BUF`,
log 4). -/
def Obligations.CanonicalBuffersAreDeterminedByTheirBytes : Prop :=
  ∀ m₁ m₂ : Memory, Memory.wf m₁ = true → Memory.wf m₂ = true →
    (∀ p, Memory.read? m₁ p = Memory.read? m₂ p) → m₁ = m₂

/-! ## Construction -/

/-- 43_construct.md R140: INIT completes from every state, in every phase, with the state of the rule and nothing else
changed; on the port, for every word with op 00 whatever its low byte and `iv_in`. -/
def Obligations.InitConstructsTheDefaultState : Prop :=
  (∀ s : State, exec .init s = .next { s with
    h := ⟨0x6a09e667, 0xbb67ae85, 0x3c6ef372, 0xa54ff53a, 0x510e527f, 0x9b05688c, 0x1f83d9ab, 0x5be0cd19⟩
    bitLen := 0#64, bufLen := 0#6, phase := .accepting, errProtocol := false, lenOvf := false, rsp := some .ok }) ∧
  (∀ (s : State) (c : BitVec 10) (iv : BitVec 256), c.extractLsb' 8 2 = 0b00#2 →
    step (s.offer ⟨c, iv⟩) = exec .init s)

/-- 43_construct.md R141: INIT_IV completes from every state, in every phase, with every operand; with the words of
`IV` it is INIT; on the port, for every word with op 01 whatever its low byte, `H[k]` is `iv_in[255-32k : 224-32k]` and
`h_out` then shows the very value that stood on `iv_in`. -/
def Obligations.InitIvConstructsTheGivenState : Prop :=
  (∀ (s : State) (iv : HashState), exec (.initIv iv) s = .next { s with
    h := iv, bitLen := 0#64, bufLen := 0#6, phase := .accepting, errProtocol := false, lenOvf := false,
    rsp := some .ok }) ∧
  (∀ s : State, exec (.initIv initialHash) s = exec .init s) ∧
  (∀ (s : State) (c : BitVec 10) (iv : BitVec 256), c.extractLsb' 8 2 = 0b01#2 →
    ∃ h, step (s.offer ⟨c, iv⟩) = exec (.initIv h) s ∧
      (∀ k : Fin 8, hashWord h k = iv.extractLsb' (224 - 32 * k.val) 32) ∧ packWords h = iv)

/-! ## APPEND -/

/-- 44_append.md R150: PUSH stores the byte at `BUFLEN`; when that is the 64th byte it compresses the whole block at
once, adds 512 to `BITLEN` modulo 2^64 with the carry as `wrapped`, and sets `BUFLEN` to 0; else it adds 1 to `BUFLEN`
and `wrapped` is 0; nothing else changes. -/
def Obligations.PushStoresAndCompressesTheFullBlock : Prop :=
  ∀ (x : Byte) (s : State),
    (s.bufLen ≠ 63#6 →
      (push x s).1 = { s with buf := Memory.write s.buf s.bufLen.toNat x, bufLen := s.bufLen + 1#6 } ∧
      (push x s).2 = false) ∧
    (s.bufLen = 63#6 →
      (push x s).1 = { s with
        buf := Memory.write s.buf 63 x
        h := compress s.h (fun p => if p = 63#6 then x else s.bufByte p.toNat)
        bitLen := s.bitLen + 512#64, bufLen := 0#6 } ∧
      (push x s).2 = decide (2 ^ 64 ≤ s.bitLen.toNat + 512))

/-- 44_append.md R151, on the command itself with PUSH (R150) written out: rejected when FINALIZED; else, inside a
block, the byte stored and counted; at the 64th byte, the block compressed in the same command, `BITLEN + 512` modulo
2^64, `BUFLEN` 0, `LEN_OVF` set when the addition carries and never cleared; the response from `LEN_OVF` afterwards;
nothing else changes. On the port, for every word with op 10, the byte is `cmd[7:0]`. -/
def Obligations.AppendFollowsItsRule : Prop :=
  (∀ (s : State) (b : Byte), s.phase = .finalized →
    exec (.append b) s = .next { s with errProtocol := true, rsp := some .protocolViolation }) ∧
  (∀ (s : State) (b : Byte), s.phase = .accepting → s.bufLen ≠ 63#6 →
    exec (.append b) s = .next { s with
      buf := Memory.write s.buf s.bufLen.toNat b, bufLen := s.bufLen + 1#6,
      rsp := some (if s.lenOvf then .lengthOverflow else .ok) }) ∧
  (∀ (s : State) (b : Byte), s.phase = .accepting → s.bufLen = 63#6 →
    let ovf : Bool := s.lenOvf || decide (2 ^ 64 ≤ s.bitLen.toNat + 512)
    exec (.append b) s = .next { s with
      buf := Memory.write s.buf 63 b
      h := compress s.h (fun p => if p = 63#6 then b else s.bufByte p.toNat)
      bitLen := s.bitLen + 512#64, bufLen := 0#6, lenOvf := ovf
      rsp := some (if ovf then .lengthOverflow else .ok) }) ∧
  (∀ (s : State) (c : BitVec 10) (iv : BitVec 256), c.extractLsb' 8 2 = 0b10#2 →
    step (s.offer ⟨c, iv⟩) = exec (.append (c.extractLsb' 0 8)) s)

/-- The frame of an accepted APPEND on `BUF`: the one byte at `BUFLEN` is stored, every other byte reads as before
(44_append.md R150). -/
def Obligations.AppendStoresOneByteOnly : Prop :=
  ∀ (s : State) (b : Byte), s.phase = .accepting →
    ∃ t, exec (.append b) s = .next t ∧ t.bufByte s.bufLen.toNat = b ∧
      ∀ p, p ≠ s.bufLen.toNat → t.bufByte p = s.bufByte p

/-- The step that keeps 10_state.md R36: an accepted APPEND that does not wrap `BITLEN` adds exactly 8 to
`BITLEN + 8*BUFLEN`. -/
def Obligations.AppendCountsEightBits : Prop :=
  ∀ (s : State) (b : Byte), s.phase = .accepting → ¬ (s.bufLen = 63#6 ∧ 2 ^ 64 ≤ s.bitLen.toNat + 512) →
    ∃ t, exec (.append b) s = .next t ∧
      t.bitLen.toNat + 8 * t.bufLen.toNat = s.bitLen.toNat + 8 * s.bufLen.toNat + 8

/-! ## FINALIZE -/

/-- 45_finalize.md R160 to R163, R169. Rejected when FINALIZED. With fewer than 56 bytes buffered: the last block is the
buffered bytes, 0x80, zeros up to offset 56 and the big-endian message length TOTAL, taken before any padding; it is
compressed once and `BITLEN` grows by 512. With 56 to 63 bytes buffered: the block is filled with 0x80 and zeros and
compressed, then a block of 56 zeros and TOTAL; `BITLEN` grows by 1024. In both: `BUFLEN` 0, `PHASE` FINALIZED, `BUF`
holds the last block, `h_out` shows the digest, `LEN_OVF` is reported and not written, nothing else changes. On the
port, for every word with op 11. -/
def Obligations.FinalizeFollowsItsRule : Prop :=
  (∀ s : State, s.phase = .finalized →
    exec .finalize s = .next { s with errProtocol := true, rsp := some .protocolViolation }) ∧
  (∀ s : State, s.phase = .accepting → s.bufLen.toNat < 56 →
    let total : BitVec 64 := s.bitLen + BitVec.ofNat 64 (8 * s.bufLen.toNat)
    let last : Block := fun p =>
      if p < s.bufLen then s.bufByte p.toNat else if p = s.bufLen then 0x80#8
      else if p.toNat < 56 then 0x00#8 else total.extractLsb' (8 * (63 - p.toNat)) 8
    ∃ t, exec .finalize s = .next t ∧
      t = { s with h := compress s.h last, bitLen := s.bitLen + 512#64, bufLen := 0#6, phase := .finalized,
                   buf := t.buf, rsp := some (if s.lenOvf then .lengthOverflow else .ok) } ∧
      t.hOut = packWords (compress s.h last) ∧
      (∀ p : BitVec 6, t.bufByte p.toNat = last p) ∧ (∀ p, 64 ≤ p → t.bufByte p = s.bufByte p)) ∧
  (∀ s : State, s.phase = .accepting → 56 ≤ s.bufLen.toNat →
    let total : BitVec 64 := s.bitLen + BitVec.ofNat 64 (8 * s.bufLen.toNat)
    let first : Block := fun p =>
      if p < s.bufLen then s.bufByte p.toNat else if p = s.bufLen then 0x80#8 else 0x00#8
    let last : Block := fun p => if p.toNat < 56 then 0x00#8 else total.extractLsb' (8 * (63 - p.toNat)) 8
    ∃ t, exec .finalize s = .next t ∧
      t = { s with h := compress (compress s.h first) last, bitLen := s.bitLen + 1024#64, bufLen := 0#6,
                   phase := .finalized, buf := t.buf, rsp := some (if s.lenOvf then .lengthOverflow else .ok) } ∧
      t.hOut = packWords (compress (compress s.h first) last) ∧
      (∀ p : BitVec 6, t.bufByte p.toNat = last p) ∧ (∀ p, 64 ≤ p → t.bufByte p = s.bufByte p)) ∧
  (∀ (s : State) (c : BitVec 10) (iv : BitVec 256), c.extractLsb' 8 2 = 0b11#2 →
    step (s.offer ⟨c, iv⟩) = exec .finalize s)

/-! ## Refusal of a command -/

/-- 60_exceptions.md R181: an APPEND or FINALIZE in phase FINALIZED sets `ERR_PROTOCOL`, answers 0b01, and changes
nothing else, so `h_out` keeps the digest. -/
def Obligations.CommandAfterFinalizeIsRejected : Prop :=
  ∀ s : State, s.phase = .finalized →
    (∀ b : Byte, exec (.append b) s = .next { s with errProtocol := true, rsp := some .protocolViolation }) ∧
    exec .finalize s = .next { s with errProtocol := true, rsp := some .protocolViolation }

/-- 45_finalize.md R166, 60_exceptions.md R187: however many commands are rejected in a row, the digest stays and the
state is the one after the first rejection: "no nesting, no count of violations and no escalation". -/
def Obligations.RepeatedViolationsChangeNothingMore : Prop :=
  ∀ (is : List Instr) (s : State), s.phase = .finalized → is ≠ [] →
    (∀ i ∈ is, i = .finalize ∨ ∃ b, i = .append b) →
    runCommands is s = .next { s with errProtocol := true, rsp := some .protocolViolation }

/-! ## One register over all commands -/

/-- 10_state.md R27, 60_exceptions.md R189: `PHASE` after each command and after reset; a command is rejected exactly when
it is APPEND or FINALIZE and `PHASE` is 1; `status[0]` shows `PHASE`. -/
def Obligations.PhaseAfterEveryCommand : Prop :=
  (∀ (i : Instr) (s : State), ∃ t, exec i s = .next t ∧
    t.phase = (match i with
      | .init => .accepting
      | .initIv _ => .accepting
      | .append _ => s.phase
      | .finalize => .finalized) ∧
    (t.rsp = some .protocolViolation ↔ s.phase = .finalized ∧ (i = .finalize ∨ ∃ b, i = .append b)) ∧
    (t.status.getLsbD 0 = true ↔ t.phase = .finalized)) ∧
  (∀ s : State, s.nextRequest = .reset → ∃ t, step s = .next t ∧ t.phase = .accepting)

/-- 10_state.md R28: `ERR_PROTOCOL` after each command and after reset; and it changes the behaviour of none: with the
flag of the state before replaced by any value, every other register comes out the same; `status[1]` shows it. -/
def Obligations.ErrProtocolAfterEveryCommand : Prop :=
  (∀ (i : Instr) (s : State), ∃ t, exec i s = .next t ∧
    t.errProtocol = (match i with
      | .init => false
      | .initIv _ => false
      | .append _ => s.errProtocol || decide (s.phase = .finalized)
      | .finalize => s.errProtocol || decide (s.phase = .finalized)) ∧
    t.status.getLsbD 1 = t.errProtocol ∧
    ∀ e : Bool, ∃ u, exec i { s with errProtocol := e } = .next u ∧ u = { t with errProtocol := u.errProtocol }) ∧
  (∀ s : State, s.nextRequest = .reset → ∃ t, step s = .next t ∧ t.errProtocol = false)

/-- 10_state.md R29: `LEN_OVF` after each command, for `BITLEN` a multiple of 512 (10_state.md R35), and after reset: set
only by the accepted APPEND that completes a block at 2^64 - 512, never by FINALIZE, cleared by construction; and it
changes no behaviour but the response: with the flag of the state before replaced by any value, every other register
comes out the same; `status[2]` shows it. It is 1 exactly when 2^64 or more message bits have been appended since the last
construct. -/
def Obligations.LenOvfAfterEveryCommand : Prop :=
  (∀ (i : Instr) (s : State), s.bitLen.toNat % 512 = 0 → ∃ t, exec i s = .next t ∧
    t.lenOvf = (match i with
      | .init => false
      | .initIv _ => false
      | .append _ => s.lenOvf ||
          decide (s.phase = .accepting ∧ s.bufLen = 63#6 ∧ s.bitLen = 0xfffffffffffffe00#64)
      | .finalize => s.lenOvf) ∧
    t.status.getLsbD 2 = t.lenOvf ∧
    ∀ o : Bool, ∃ u, exec i { s with lenOvf := o } = .next u ∧ u = { t with lenOvf := u.lenOvf, rsp := u.rsp }) ∧
  (∀ s : State, s.nextRequest = .reset → ∃ t, step s = .next t ∧ t.lenOvf = false) ∧
  (∀ (s : State) (i : Instr) (m : List Byte), (i = .init ∨ ∃ iv, i = .initIv iv) →
    ∃ t, runCommands (i :: appends m) s = .next t ∧ (t.lenOvf = true ↔ 2 ^ 64 ≤ 8 * m.length))

/-- 30_encoding.md R75, 60_exceptions.md R185: the response to each command, rejection outranking the sticky overflow. -/
def Obligations.ResponseToEveryCommand : Prop :=
  ∀ (i : Instr) (s : State), ∃ t, exec i s = .next t ∧ t.rspValid = true ∧
    t.rspCode = some (match i with
      | .init => 0b00#2
      | .initIv _ => 0b00#2
      | .append _ => if s.phase = .finalized then 0b01#2 else if t.lenOvf then 0b10#2 else 0b00#2
      | .finalize => if s.phase = .finalized then 0b01#2 else if t.lenOvf then 0b10#2 else 0b00#2)

/-- 10_state.md R25, R26: `BUFLEN` and `BITLEN` after each command. -/
def Obligations.CountersAfterEveryCommand : Prop :=
  ∀ (i : Instr) (s : State), ∃ t, exec i s = .next t ∧
    t.bufLen = (match i with
      | .init => 0
      | .initIv _ => 0
      | .append _ => if s.phase = .finalized then s.bufLen else s.bufLen + 1#6
      | .finalize => if s.phase = .finalized then s.bufLen else 0) ∧
    t.bitLen = (match i with
      | .init => 0
      | .initIv _ => 0
      | .append _ => if s.phase = .accepting ∧ s.bufLen = 63#6 then s.bitLen + 512#64 else s.bitLen
      | .finalize => if s.phase = .finalized then s.bitLen
          else if s.bufLen.toNat < 56 then s.bitLen + 512#64 else s.bitLen + 1024#64)

/-- 10_state.md R21: `H` after each command and each step, so who writes it and with what: construction and hardware
reset; the APPEND that completes a block, with COMPRESS of that block; an accepted FINALIZE, with COMPRESS folded over the
one or two blocks of the buffered bytes followed by the padding (45_finalize.md R162, R163); nothing else. -/
def Obligations.OnlyConstructionAndCompressionWriteH : Prop :=
  (∀ (i : Instr) (s : State), ∃ t, exec i s = .next t ∧
    t.h = (match i with
      | .init => initialHash
      | .initIv iv => iv
      | .append b =>
          if s.phase = .accepting ∧ s.bufLen = 63#6
          then compress s.h (fun p => if p = 63#6 then b else s.bufByte p.toNat) else s.h
      | .finalize =>
          if s.phase = .accepting
          then foldBlocks s.h (s.buffered ++ padding s.totalBits (zeroCount s.bufLen))
            (if s.bufLen.toNat < 56 then 1 else 2)
          else s.h)) ∧
  (∀ s : State, s.nextRequest = .reset → ∃ t, step s = .next t ∧ t.h = initialHash) ∧
  (∀ s : State, s.nextRequest = .idle → ∃ t, step s = .next t ∧ t.h = s.h)

/-! ## Rules about the whole machine -/

/-- The invariant between commands, from every state that meets it and not only from reset: 10_state.md R34 and R35 and
20_memory.md R65 in the form every step keeps. -/
def Obligations.EveryStepKeepsTheInvariant : Prop :=
  ∀ s t : State, s.Inv → step s = .next t → t.Inv

/-- The invariant holds right after reset. -/
def Obligations.ResetMeetsTheInvariant : Prop :=
  State.reset.Inv

/-- 20_memory.md R65: the stale bytes of `BUF`, at and above `BUFLEN`, never influence a result: two states that differ
only there (and in the free values behind unwritten bytes) take steps to states that again differ only there. -/
def Obligations.StaleBytesNeverInfluenceAResult : Prop :=
  ∀ s₁ s₂ : State, s₂ = { s₁ with buf := s₂.buf, bufEpoch := s₂.bufEpoch } →
    (∀ p, p < s₁.bufLen.toNat → s₁.bufByte p = s₂.bufByte p) →
    ∃ t₁ t₂, step s₁ = .next t₁ ∧ step s₂ = .next t₂ ∧
      t₂ = { t₁ with buf := t₂.buf, bufEpoch := t₂.bufEpoch } ∧
      (∀ p, p < t₁.bufLen.toNat → t₁.bufByte p = t₂.bufByte p)

/-- 44_append.md R157: "No decision reads a message byte, a state word, a schedule word or a working variable": two
states that agree on phase, counters and flags, whatever their `H` and `BUF`, agree on phase, counters, flags and
response after commands of the same operation code, whatever their operands. -/
def Obligations.ControlDependsOnNoData : Prop :=
  ∀ (i₁ i₂ : Instr) (s₁ s₂ : State), opcodeRow i₁ = opcodeRow i₂ →
    s₁.phase = s₂.phase → s₁.bufLen = s₂.bufLen → s₁.bitLen = s₂.bitLen →
    s₁.errProtocol = s₂.errProtocol → s₁.lenOvf = s₂.lenOvf →
    ∃ t₁ t₂, exec i₁ s₁ = .next t₁ ∧ exec i₂ s₂ = .next t₂ ∧
      t₁.phase = t₂.phase ∧ t₁.bufLen = t₂.bufLen ∧ t₁.bitLen = t₂.bitLen ∧
      t₁.errProtocol = t₂.errProtocol ∧ t₁.lenOvf = t₂.lenOvf ∧ t₁.rsp = t₂.rsp

/-! ## Whole messages -/

/-- 44_append.md R153: appending a concatenation is appending its parts one after the other, register for register; and
what state that is, from any fill of the buffer. In phase ACCEPTING: the bytes already buffered and the appended ones
together, COMPRESS folded over their whole blocks, the rest in `BUF`, `BITLEN` counting the blocks modulo 2^64, `LEN_OVF`
set when that count reaches 2^64, the response from it, nothing else changed. In phase FINALIZED: nothing but the
rejection. -/
def Obligations.AppendingInChunksIsAppendingAtOnce : Prop :=
  ∀ (s : State) (a b : List Byte), ∃ t u, runCommands (appends a) s = .next t ∧
    runCommands (appends b) t = .next u ∧ runCommands (appends (a ++ b)) s = .next u ∧
    (s.phase = .accepting →
      let bytes := s.buffered ++ a ++ b
      let n := bytes.length / 64
      let ovf : Bool := s.lenOvf || decide (2 ^ 64 ≤ s.bitLen.toNat + 512 * n)
      u = { s with
        h := foldBlocks s.h bytes n, bitLen := s.bitLen + BitVec.ofNat 64 (512 * n)
        bufLen := BitVec.ofNat 6 bytes.length, lenOvf := ovf, buf := u.buf
        rsp := if a ++ b = [] then s.rsp else some (if ovf then .lengthOverflow else .ok) } ∧
      (∀ p, p < bytes.length % 64 → some (u.bufByte p) = bytes[64 * n + p]?)) ∧
    (s.phase = .finalized →
      u = if a ++ b = [] then s else { s with errProtocol := true, rsp := some .protocolViolation })

/-- 44_append.md R154 with 10_state.md R36: the state after `n` APPENDs from a constructed state, for every `n`, the
counter reduced modulo 2^64 and `LEN_OVF` set from 2^61 bytes on. -/
def Obligations.StateAfterAppendingAMessage : Prop :=
  ∀ (s : State) (m : List Byte), s.phase = .accepting → s.bitLen = 0#64 → s.bufLen = 0#6 → s.lenOvf = false →
    ∃ t, runCommands (appends m) s = .next t ∧
      t.h = foldBlocks s.h m (m.length / 64) ∧ t.bufLen.toNat = m.length % 64 ∧
      t.bitLen.toNat = 512 * (m.length / 64) % 2 ^ 64 ∧
      (∀ p, p < m.length % 64 → some (t.bufByte p) = m[64 * (m.length / 64) + p]?) ∧
      t.lenOvf = decide (2 ^ 61 ≤ m.length) ∧ t.phase = .accepting ∧ t.errProtocol = s.errProtocol ∧
      (m.length < 2 ^ 61 → t.bitLen.toNat + 8 * t.bufLen.toNat = 8 * m.length)

/-- 30_encoding.md R80 COMPRESS_BLOCK: INIT_IV and 64 APPENDs leave COMPRESS of the given state and block on `h_out`. -/
def Obligations.CompressBlockShowsCompressOnHOut : Prop :=
  ∀ (s : State) (iv : HashState) (blk : Block),
    ∃ t, runCommands (compressBlockCommands iv blk) s = .next t ∧ t.hOut = packWords (compress iv blk) ∧
      t.bufLen = 0#6 ∧ t.bitLen = 512#64 ∧ t.status = 0b000#3 ∧ t.rsp = some .ok

/-- 45_finalize.md R167: on the machine itself, from every state, presenting INIT (or INIT_IV), the bytes of a message
of fewer than 2^61 bytes and FINALIZE answers OK and leaves on `h_out` the hash the rules define: the message padded,
COMPRESS folded over its blocks from the initial state, serialised. That the commands stand on a list of samples and that
the host's later inputs stay is the model's choice (log 1). -/
def Obligations.MachineComputesTheHashOfEveryMessage : Prop :=
  ∀ (s : State) (m : List Byte) (rest : List PortSample), m.length < 2 ^ 61 →
    (∃ t, Host.Core.run Sys2Proof.core (m.length + 2)
        { s with inputs := (hashCommands m).map presentCommand ++ rest } = .next t ∧
      t.hOut = packWords (hashFrom initialHash m) ∧ t.rsp = some .ok ∧ t.status = 0b001#3 ∧ t.inputs = rest) ∧
    (∀ iv : HashState, ∃ t, Host.Core.run Sys2Proof.core (m.length + 2)
        { s with inputs := (hashIvCommands iv m).map presentCommand ++ rest } = .next t ∧
      t.hOut = packWords (hashFrom iv m) ∧ t.rsp = some .ok ∧ t.status = 0b001#3 ∧ t.inputs = rest)

/-- 45_finalize.md R168: construct with or without an initial state, append the bytes in any grouping into calls, and
finalize: a digest is always produced, and the value on `h_out`, the response and the status are a function of the
initial state and the byte sequence only, whatever the instance did before. -/
def Obligations.DigestIsAFunctionOfStateAndBytes : Prop :=
  ∀ (s₁ s₂ : State) (iv : Option HashState) (calls₁ calls₂ : List (List Byte)), calls₁.flatten = calls₂.flatten →
    ∃ t₁ t₂,
      runCommands (iv.elim .init .initIv :: ((calls₁.map appends).flatten ++ [.finalize])) s₁ = .next t₁ ∧
      runCommands (iv.elim .init .initIv :: ((calls₂.map appends).flatten ++ [.finalize])) s₂ = .next t₂ ∧
      t₁.phase = .finalized ∧ t₁.hOut = t₂.hOut ∧ t₁.rsp = t₂.rsp ∧ t₁.status = t₂.status

/-- 70_reset_and_hazards.md R208: a message of `n` bytes costs `floor((n + 8) / 64) + 1` compressions in all, as counted
by `BITLEN` after FINALIZE. -/
def Obligations.MessageCostsItsNumberOfCompressions : Prop :=
  ∀ (s : State) (m : List Byte), ∃ t, runCommands (hashCommands m) s = .next t ∧
    t.bitLen = BitVec.ofNat 64 (512 * ((m.length + 8) / 64 + 1)) ∧
    (padMessage m).length = 64 * ((m.length + 8) / 64 + 1)
end

