-- ==== Sys2Proof/Laws/Compress.lean ====
section
/-! SUPPORT. The schedule as a list: its length, that W_EXPAND writes one entry and keeps the earlier ones, and the
recurrence over the finished schedule; the round loop one round at a time (41_schedule.md, 42_compress.md). -/

namespace Sys2Proof.Machine

@[simp] theorem wLoad_length (blk : Block) : (wLoad blk).length = 16 := by simp [wLoad]

@[simp] theorem wExpand_length (w : List Word) (i : Nat) : (wExpand w i).length = w.length + 1 := by simp [wExpand]

/-- W_EXPAND changes no entry written before. -/
theorem wExpand_old (w : List Word) (i : Nat) {j : Nat} (h : j < w.length) :
    wWord (wExpand w i) j = wWord w j := by
  simp [wWord, wExpand, List.getElem?_append_left h]

/-- W_EXPAND writes the next entry. -/
theorem wExpand_new (w : List Word) (i : Nat) :
    wWord (wExpand w i) w.length =
      wWord w (i - 16) + ssig0 (wWord w (i - 15)) + wWord w (i - 7) + ssig1 (wWord w (i - 2)) := by
  simp [wWord, wExpand]

/-- The schedule after its first `n` extension steps. -/
theorem expanded_succ (blk : Block) (n : Nat) :
    (List.range' 16 (n + 1)).foldl wExpand (wLoad blk) =
      wExpand ((List.range' 16 n).foldl wExpand (wLoad blk)) (16 + n) := by
  rw [List.range'_concat, List.foldl_append]
  simp

theorem expanded_length (blk : Block) (n : Nat) :
    ((List.range' 16 n).foldl wExpand (wLoad blk)).length = 16 + n := by
  induction n with
  | zero => simp
  | succ n ih => rw [expanded_succ, wExpand_length, ih]; omega

/-- An entry written keeps its value through every later extension step. -/
theorem expanded_stable (blk : Block) {n m j : Nat} (hnm : n ≤ m) (hj : j < 16 + n) :
    wWord ((List.range' 16 m).foldl wExpand (wLoad blk)) j = wWord ((List.range' 16 n).foldl wExpand (wLoad blk)) j := by
  induction m with
  | zero => rw [Nat.le_zero.1 hnm]
  | succ m ih =>
    rcases Nat.lt_or_ge m n with h | h
    · rw [show n = m + 1 by omega]
    · rw [expanded_succ, wExpand_old _ _ (by rw [expanded_length]; omega), ih h]

theorem schedule_length (blk : Block) : (schedule blk).length = 64 := expanded_length blk 48

/-- The first sixteen entries are W_LOAD's. -/
theorem schedule_loaded (blk : Block) {j : Nat} (h : j < 16) :
    wWord (schedule blk) j = memRead4 blk (BitVec.ofNat 6 (4 * j)) := by
  rw [schedule, expanded_stable blk (Nat.zero_le 48) (by omega)]
  simp [wWord, wLoad, h]

/-- Each later entry is the recurrence over the finished schedule. -/
theorem schedule_extended (blk : Block) {i : Nat} (h₁ : 16 ≤ i) (h₂ : i < 64) :
    wWord (schedule blk) i = wWord (schedule blk) (i - 16) + ssig0 (wWord (schedule blk) (i - 15)) +
      wWord (schedule blk) (i - 7) + ssig1 (wWord (schedule blk) (i - 2)) := by
  obtain ⟨n, rfl⟩ : ∃ n, i = 16 + n := ⟨i - 16, by omega⟩
  have h : ∀ j, j < 16 + n → wWord (schedule blk) j = wWord ((List.range' 16 n).foldl wExpand (wLoad blk)) j :=
    fun j hj => expanded_stable blk (by omega) hj
  have hnew : wWord (schedule blk) (16 + n) = _ :=
    expanded_stable blk (n := n + 1) (m := 48) (by omega) (by omega)
  have hw := wExpand_new ((List.range' 16 n).foldl wExpand (wLoad blk)) (16 + n)
  rw [expanded_length] at hw
  rw [hnew, expanded_succ, hw, h (16 + n - 16) (by omega), h (16 + n - 15) (by omega), h (16 + n - 7) (by omega),
    h (16 + n - 2) (by omega)]

/-! ## The round loop -/

@[simp] theorem rounds_zero (w : List Word) (v : WorkVars) : rounds w 0 v = v := rfl

theorem rounds_succ (w : List Word) (n : Nat) (v : WorkVars) :
    rounds w (n + 1) v = round (rounds w n v) (kWord n) (wWord w n) := by
  simp [rounds, List.range_succ]

/-- Any sequence that takes the rounds one by one is the loop. -/
theorem rounds_eq_of_trace {w : List Word} {v : Nat → WorkVars} {n : Nat}
    (h : ∀ i, i < n → v (i + 1) = round (v i) (kWord i) (wWord w i)) : rounds w n (v 0) = v n := by
  induction n with
  | zero => rfl
  | succ n ih => rw [rounds_succ, ih fun i hi => h i (by omega), h n (by omega)]

end Sys2Proof.Machine
end

