-- ==== Sys2Proof/Laws/Decode.lean ====
section
/-! SUPPORT. The wide ports: packing eight words and taking them apart are inverse (20_memory.md R55); the two fields of a
command word. -/

namespace Sys2Proof

@[simp] theorem portWords_packWords (h : HashState) : portWords (packWords h) = h := by
  obtain ⟨a, b, c, d, e, f, g, i⟩ := h
  simp only [portWords, portWord, packWords, HashState.mk.injEq]
  refine ⟨?_, ?_, ?_, ?_, ?_, ?_, ?_, ?_⟩ <;>
  · apply BitVec.eq_of_getLsbD_eq
    intro n hn
    simp only [BitVec.getLsbD_extractLsb', BitVec.getLsbD_append]
    simp only [hn, decide_true, Bool.true_and]
    repeat' split
    all_goals first | (exfalso; omega) | exact congrArg (BitVec.getLsbD _) (by omega)

@[simp] theorem packWords_portWords (p : BitVec 256) : packWords (portWords p) = p := by
  apply BitVec.eq_of_getLsbD_eq
  intro n hn
  simp only [portWords, portWord, packWords, BitVec.getLsbD_append, BitVec.getLsbD_extractLsb']
  repeat' split
  all_goals simp (disch := omega) only [decide_eq_true, Bool.true_and]
  all_goals exact congrArg (BitVec.getLsbD _) (by omega)

/-- The operation code has four values (30_encoding.md R72). -/
theorem opcode_cases (x : BitVec 2) : x = 0b00#2 ∨ x = 0b01#2 ∨ x = 0b10#2 ∨ x = 0b11#2 := by
  revert x; decide

/-- A command word is its operation code above its low byte (30_encoding.md R71). -/
theorem opField_append_byteField (c : BitVec 10) : opField c ++ byteField c = c := by
  apply BitVec.eq_of_getLsbD_eq
  intro n hn
  simp only [opField, byteField, BitVec.getLsbD_append, BitVec.getLsbD_extractLsb']
  split
  · simp_all
  · simp (disch := omega) only [decide_eq_true, Bool.true_and]
    exact congrArg (BitVec.getLsbD _) (by omega)

@[simp] theorem opField_append (op : BitVec 2) (b : Byte) : opField (op ++ b) = op := by
  rw [opField, BitVec.extractLsb'_append_eq_left]

@[simp] theorem byteField_append (op : BitVec 2) (b : Byte) : byteField (op ++ b) = b := by
  rw [byteField, BitVec.extractLsb'_append_eq_right]

end Sys2Proof
end

