-- ==== Sys2Proof/Laws/State.lean ====
section
/-! SUPPORT. One lemma for each field of State after each shared update, true by rfl, so that no later proof unfolds a
record update. -/

namespace Sys2Proof.Machine

/-! ## `BUF[BUFLEN] <- x` -/

@[simp] theorem writeBuf_h (s : State) (x : Byte) : (s.writeBuf x).h = s.h := rfl
@[simp] theorem writeBuf_buf (s : State) (x : Byte) : (s.writeBuf x).buf = Memory.write s.buf s.bufLen.toNat x := rfl
@[simp] theorem writeBuf_bufLen (s : State) (x : Byte) : (s.writeBuf x).bufLen = s.bufLen := rfl
@[simp] theorem writeBuf_bitLen (s : State) (x : Byte) : (s.writeBuf x).bitLen = s.bitLen := rfl
@[simp] theorem writeBuf_phase (s : State) (x : Byte) : (s.writeBuf x).phase = s.phase := rfl
@[simp] theorem writeBuf_errProtocol (s : State) (x : Byte) : (s.writeBuf x).errProtocol = s.errProtocol := rfl
@[simp] theorem writeBuf_lenOvf (s : State) (x : Byte) : (s.writeBuf x).lenOvf = s.lenOvf := rfl
@[simp] theorem writeBuf_rsp (s : State) (x : Byte) : (s.writeBuf x).rsp = s.rsp := rfl
@[simp] theorem writeBuf_inputs (s : State) (x : Byte) : (s.writeBuf x).inputs = s.inputs := rfl
@[simp] theorem writeBuf_bufEpoch (s : State) (x : Byte) : (s.writeBuf x).bufEpoch = s.bufEpoch := rfl

/-! ## The 64th byte -/

@[simp] theorem absorbBlock_h (s : State) : (s.absorbBlock).h = compress s.h s.block := by
  unfold State.absorbBlock; rfl
@[simp] theorem absorbBlock_buf (s : State) : (s.absorbBlock).buf = s.buf := by
  unfold State.absorbBlock; rfl
@[simp] theorem absorbBlock_bufLen (s : State) : (s.absorbBlock).bufLen = 0#6 := by
  unfold State.absorbBlock; rfl
@[simp] theorem absorbBlock_bitLen (s : State) : (s.absorbBlock).bitLen = s.bitLen + 512#64 := by
  unfold State.absorbBlock; rfl
@[simp] theorem absorbBlock_phase (s : State) : (s.absorbBlock).phase = s.phase := by
  unfold State.absorbBlock; rfl
@[simp] theorem absorbBlock_errProtocol (s : State) : (s.absorbBlock).errProtocol = s.errProtocol := by
  unfold State.absorbBlock; rfl
@[simp] theorem absorbBlock_lenOvf (s : State) : (s.absorbBlock).lenOvf = s.lenOvf := by
  unfold State.absorbBlock; rfl
@[simp] theorem absorbBlock_rsp (s : State) : (s.absorbBlock).rsp = s.rsp := by
  unfold State.absorbBlock; rfl
@[simp] theorem absorbBlock_inputs (s : State) : (s.absorbBlock).inputs = s.inputs := by
  unfold State.absorbBlock; rfl
@[simp] theorem absorbBlock_bufEpoch (s : State) : (s.absorbBlock).bufEpoch = s.bufEpoch := by
  unfold State.absorbBlock; rfl

/-! ## Construction -/

@[simp] theorem construct_h (s : State) (h : HashState) : (s.construct h).h = h := rfl
@[simp] theorem construct_buf (s : State) (h : HashState) : (s.construct h).buf = s.buf := rfl
@[simp] theorem construct_bufLen (s : State) (h : HashState) : (s.construct h).bufLen = 0#6 := rfl
@[simp] theorem construct_bitLen (s : State) (h : HashState) : (s.construct h).bitLen = 0#64 := rfl
@[simp] theorem construct_phase (s : State) (h : HashState) : (s.construct h).phase = .accepting := rfl
@[simp] theorem construct_errProtocol (s : State) (h : HashState) : (s.construct h).errProtocol = false := rfl
@[simp] theorem construct_lenOvf (s : State) (h : HashState) : (s.construct h).lenOvf = false := rfl
@[simp] theorem construct_rsp (s : State) (h : HashState) : (s.construct h).rsp = some .ok := rfl
@[simp] theorem construct_inputs (s : State) (h : HashState) : (s.construct h).inputs = s.inputs := rfl
@[simp] theorem construct_bufEpoch (s : State) (h : HashState) : (s.construct h).bufEpoch = s.bufEpoch := rfl

/-! ## ProtocolViolation -/

@[simp] theorem rejectCommand_h (s : State) : (s.rejectCommand).h = s.h := rfl
@[simp] theorem rejectCommand_buf (s : State) : (s.rejectCommand).buf = s.buf := rfl
@[simp] theorem rejectCommand_bufLen (s : State) : (s.rejectCommand).bufLen = s.bufLen := rfl
@[simp] theorem rejectCommand_bitLen (s : State) : (s.rejectCommand).bitLen = s.bitLen := rfl
@[simp] theorem rejectCommand_phase (s : State) : (s.rejectCommand).phase = s.phase := rfl
@[simp] theorem rejectCommand_errProtocol (s : State) : (s.rejectCommand).errProtocol = true := rfl
@[simp] theorem rejectCommand_lenOvf (s : State) : (s.rejectCommand).lenOvf = s.lenOvf := rfl
@[simp] theorem rejectCommand_rsp (s : State) : (s.rejectCommand).rsp = some .protocolViolation := rfl
@[simp] theorem rejectCommand_inputs (s : State) : (s.rejectCommand).inputs = s.inputs := rfl
@[simp] theorem rejectCommand_bufEpoch (s : State) : (s.rejectCommand).bufEpoch = s.bufEpoch := rfl

/-! ## Completion -/

@[simp] theorem complete_h (s : State) : (s.complete).h = s.h := rfl
@[simp] theorem complete_buf (s : State) : (s.complete).buf = s.buf := rfl
@[simp] theorem complete_bufLen (s : State) : (s.complete).bufLen = s.bufLen := rfl
@[simp] theorem complete_bitLen (s : State) : (s.complete).bitLen = s.bitLen := rfl
@[simp] theorem complete_phase (s : State) : (s.complete).phase = s.phase := rfl
@[simp] theorem complete_errProtocol (s : State) : (s.complete).errProtocol = s.errProtocol := rfl
@[simp] theorem complete_lenOvf (s : State) : (s.complete).lenOvf = s.lenOvf := rfl
@[simp] theorem complete_rsp (s : State) : (s.complete).rsp = some (executedResponse s.lenOvf) := rfl
@[simp] theorem complete_inputs (s : State) : (s.complete).inputs = s.inputs := rfl
@[simp] theorem complete_bufEpoch (s : State) : (s.complete).bufEpoch = s.bufEpoch := rfl

/-! ## LengthOverflow -/

@[simp] theorem noteWrap_h (s : State) (w : Bool) : (s.noteWrap w).h = s.h := rfl
@[simp] theorem noteWrap_buf (s : State) (w : Bool) : (s.noteWrap w).buf = s.buf := rfl
@[simp] theorem noteWrap_bufLen (s : State) (w : Bool) : (s.noteWrap w).bufLen = s.bufLen := rfl
@[simp] theorem noteWrap_bitLen (s : State) (w : Bool) : (s.noteWrap w).bitLen = s.bitLen := rfl
@[simp] theorem noteWrap_phase (s : State) (w : Bool) : (s.noteWrap w).phase = s.phase := rfl
@[simp] theorem noteWrap_errProtocol (s : State) (w : Bool) : (s.noteWrap w).errProtocol = s.errProtocol := rfl
@[simp] theorem noteWrap_lenOvf (s : State) (w : Bool) : (s.noteWrap w).lenOvf = (s.lenOvf || w) := rfl
@[simp] theorem noteWrap_rsp (s : State) (w : Bool) : (s.noteWrap w).rsp = s.rsp := rfl
@[simp] theorem noteWrap_inputs (s : State) (w : Bool) : (s.noteWrap w).inputs = s.inputs := rfl
@[simp] theorem noteWrap_bufEpoch (s : State) (w : Bool) : (s.noteWrap w).bufEpoch = s.bufEpoch := rfl

/-! ## Taking a sample -/

@[simp] theorem dropInput_h (s : State) : (s.dropInput).h = s.h := rfl
@[simp] theorem dropInput_buf (s : State) : (s.dropInput).buf = s.buf := rfl
@[simp] theorem dropInput_bufLen (s : State) : (s.dropInput).bufLen = s.bufLen := rfl
@[simp] theorem dropInput_bitLen (s : State) : (s.dropInput).bitLen = s.bitLen := rfl
@[simp] theorem dropInput_phase (s : State) : (s.dropInput).phase = s.phase := rfl
@[simp] theorem dropInput_errProtocol (s : State) : (s.dropInput).errProtocol = s.errProtocol := rfl
@[simp] theorem dropInput_lenOvf (s : State) : (s.dropInput).lenOvf = s.lenOvf := rfl
@[simp] theorem dropInput_rsp (s : State) : (s.dropInput).rsp = s.rsp := rfl
@[simp] theorem dropInput_inputs (s : State) : (s.dropInput).inputs = s.inputs.tail := rfl
@[simp] theorem dropInput_bufEpoch (s : State) : (s.dropInput).bufEpoch = s.bufEpoch := rfl

/-! ## Presenting a transfer -/

@[simp] theorem offer_h (s : State) (t : Transfer) : (s.offer t).h = s.h := rfl
@[simp] theorem offer_buf (s : State) (t : Transfer) : (s.offer t).buf = s.buf := rfl
@[simp] theorem offer_bufLen (s : State) (t : Transfer) : (s.offer t).bufLen = s.bufLen := rfl
@[simp] theorem offer_bitLen (s : State) (t : Transfer) : (s.offer t).bitLen = s.bitLen := rfl
@[simp] theorem offer_phase (s : State) (t : Transfer) : (s.offer t).phase = s.phase := rfl
@[simp] theorem offer_errProtocol (s : State) (t : Transfer) : (s.offer t).errProtocol = s.errProtocol := rfl
@[simp] theorem offer_lenOvf (s : State) (t : Transfer) : (s.offer t).lenOvf = s.lenOvf := rfl
@[simp] theorem offer_rsp (s : State) (t : Transfer) : (s.offer t).rsp = s.rsp := rfl
@[simp] theorem offer_inputs (s : State) (t : Transfer) : (s.offer t).inputs = presentTransfer t :: s.inputs := rfl
@[simp] theorem offer_bufEpoch (s : State) (t : Transfer) : (s.offer t).bufEpoch = s.bufEpoch := rfl

/-! ## Hardware reset -/

@[simp] theorem hardwareReset_h (s : State) : (s.hardwareReset).h = initialHash := rfl
@[simp] theorem hardwareReset_buf (s : State) : (s.hardwareReset).buf = [] := rfl
@[simp] theorem hardwareReset_bufLen (s : State) : (s.hardwareReset).bufLen = 0#6 := rfl
@[simp] theorem hardwareReset_bitLen (s : State) : (s.hardwareReset).bitLen = 0#64 := rfl
@[simp] theorem hardwareReset_phase (s : State) : (s.hardwareReset).phase = .accepting := rfl
@[simp] theorem hardwareReset_errProtocol (s : State) : (s.hardwareReset).errProtocol = false := rfl
@[simp] theorem hardwareReset_lenOvf (s : State) : (s.hardwareReset).lenOvf = false := rfl
@[simp] theorem hardwareReset_rsp (s : State) : (s.hardwareReset).rsp = none := rfl
@[simp] theorem hardwareReset_inputs (s : State) : (s.hardwareReset).inputs = s.inputs := rfl
@[simp] theorem hardwareReset_bufEpoch (s : State) : (s.hardwareReset).bufEpoch = s.bufEpoch + 1 := rfl

end Sys2Proof.Machine
end

