-- ==== Sys2Proof/Laws/Memory.lean ====
section
/-! SUPPORT. The laws of the block buffer: what a write reads back as, that every write keeps the canonical form, that
a canonical buffer is determined by what it reads as, and what `BUF[p]` is after each shared operation. -/

namespace Sys2Proof.Machine

/-! ## Read after write -/

@[simp] theorem read?_nil (p : Nat) : Memory.read? [] p = none := rfl

theorem read?_cons (a : Nat) (v : Byte) (m : Memory) (p : Nat) :
    Memory.read? ((a, v) :: m) p = if a = p then some v else Memory.read? m p := rfl

theorem read?_write (m : Memory) (p : Nat) (v : Byte) (q : Nat) :
    Memory.read? (Memory.write m p v) q = if q = p then some v else Memory.read? m q := by
  induction m with
  | nil => simp [Memory.write, read?_cons, eq_comm]
  | cons c m ih =>
    obtain ⟨a, x⟩ := c
    unfold Memory.write
    split
    · simp [read?_cons, eq_comm]
    · split
      · next h =>
        subst h
        simp only [read?_cons]
        by_cases hq : p = q
        · simp [hq]
        · simp [hq, Ne.symm hq]
      · next h =>
        simp only [read?_cons, ih]
        split
        · next h' => subst h'; simp [Ne.symm h]
        · rfl

@[simp] theorem read?_write_same (m : Memory) (p : Nat) (v : Byte) :
    Memory.read? (Memory.write m p v) p = some v := by simp [read?_write]

theorem read?_write_ne (m : Memory) {p q : Nat} (v : Byte) (h : q ≠ p) :
    Memory.read? (Memory.write m p v) q = Memory.read? m q := by simp [read?_write, h]

/-! ## The canonical form -/

@[simp] theorem wf_nil : Memory.wf [] = true := rfl

theorem risingFrom_cons (lo a : Nat) (v : Byte) (m : Memory) :
    Memory.risingFrom lo ((a, v) :: m) = true ↔ lo ≤ a ∧ a < 64 ∧ Memory.risingFrom (a + 1) m = true := by
  simp [Memory.risingFrom, and_assoc]

theorem risingFrom_write {m : Memory} {lo p : Nat} (v : Byte) (hlo : lo ≤ p) (hp : p < 64)
    (h : Memory.risingFrom lo m = true) : Memory.risingFrom lo (Memory.write m p v) = true := by
  induction m generalizing lo with
  | nil => simp [Memory.write, hlo, hp, Memory.risingFrom]
  | cons c m ih =>
    obtain ⟨a, x⟩ := c
    obtain ⟨h₁, h₂, h₃⟩ := (risingFrom_cons ..).1 h
    unfold Memory.write
    split
    · next hpa => exact (risingFrom_cons ..).2 ⟨hlo, hp, (risingFrom_cons ..).2 ⟨hpa, h₂, h₃⟩⟩
    · split
      · next hpa => exact (risingFrom_cons ..).2 ⟨hlo, hp, hpa ▸ h₃⟩
      · exact (risingFrom_cons ..).2 ⟨h₁, h₂, ih (by omega) h₃⟩

/-- Every write at an index of `BUF` keeps the canonical form. -/
theorem wf_write {m : Memory} {p : Nat} (v : Byte) (hp : p < 64) (h : Memory.wf m = true) :
    Memory.wf (Memory.write m p v) = true :=
  risingFrom_write v (Nat.zero_le p) hp h

theorem read?_eq_none_of_rising {m : Memory} {lo p : Nat} (h : Memory.risingFrom lo m = true) (hp : p < lo) :
    Memory.read? m p = none := by
  induction m generalizing lo with
  | nil => rfl
  | cons c m ih =>
    obtain ⟨a, x⟩ := c
    obtain ⟨h₁, -, h₃⟩ := (risingFrom_cons ..).1 h
    rw [read?_cons, if_neg (by omega), ih h₃ (by omega)]

/-- Below its first index a canonical list reads as nothing, so equal readings force equal first entries. -/
theorem rising_ext {m₁ m₂ : Memory} {lo : Nat} (h₁ : Memory.risingFrom lo m₁ = true)
    (h₂ : Memory.risingFrom lo m₂ = true) (h : ∀ p, Memory.read? m₁ p = Memory.read? m₂ p) : m₁ = m₂ := by
  induction m₁ generalizing m₂ lo with
  | nil =>
    cases m₂ with
    | nil => rfl
    | cons c m =>
      obtain ⟨a, x⟩ := c
      simpa [read?_cons] using h a
  | cons c m ih =>
    obtain ⟨a, x⟩ := c
    obtain ⟨-, -, ha⟩ := (risingFrom_cons ..).1 h₁
    cases m₂ with
    | nil => simpa [read?_cons] using h a
    | cons d n =>
      obtain ⟨b, y⟩ := d
      obtain ⟨-, -, hb⟩ := (risingFrom_cons ..).1 h₂
      have hab : a = b := by
        rcases Nat.lt_trichotomy a b with hlt | heq | hgt
        · have := h a
          rw [read?_cons, if_pos rfl, read?_cons, if_neg (by omega), read?_eq_none_of_rising hb (by omega)] at this
          cases this
        · exact heq
        · have := h b
          rw [read?_cons, if_neg (by omega), read?_eq_none_of_rising ha (by omega), read?_cons, if_pos rfl] at this
          cases this
      subst hab
      have hxy : x = y := by simpa [read?_cons] using h a
      subst hxy
      have : m = n := ih ha hb fun p => by
        by_cases hp : a = p
        · rw [read?_eq_none_of_rising ha (by omega), read?_eq_none_of_rising hb (by omega)]
        · simpa [read?_cons, hp] using h p
      rw [this]

/-! ## Bytes of the state -/

/-- `BUF[p]` depends on the buffer and the reset count only. -/
theorem bufByte_congr {s t : State} (hb : t.buf = s.buf) (he : t.bufEpoch = s.bufEpoch) (p : Nat) :
    t.bufByte p = s.bufByte p := by simp [State.bufByte, hb, he]

theorem bufByte_writeBuf (s : State) (x : Byte) (p : Nat) :
    (s.writeBuf x).bufByte p = if p = s.bufLen.toNat then x else s.bufByte p := by
  simp only [State.bufByte, writeBuf_buf, writeBuf_bufEpoch, read?_write]
  split <;> rfl

theorem block_writeBuf (s : State) (x : Byte) :
    (s.writeBuf x).block = fun p => if p = s.bufLen then x else s.block p := by
  funext p
  simp [State.block, bufByte_writeBuf, BitVec.toNat_inj]

end Sys2Proof.Machine
end

