-- ==== Sys2Proof/Laws/Push.lean ====
section
/-! SUPPORT. What PUSH does, once (44_append.md R150), and what a run of PUSHes does: field by field, up to the end of a
block, and over a whole message from an empty buffer. -/

namespace Sys2Proof.Machine

/-! ## One PUSH -/

/-- PUSH has two outcomes, by the block-full test alone. -/
theorem push_cases (x : Byte) (s : State) :
    (s.bufLen = 63#6 ∧ push x s = ((s.writeBuf x).absorbBlock, carry512 s.bitLen)) ∨
    (s.bufLen ≠ 63#6 ∧ push x s = ({ s.writeBuf x with bufLen := s.bufLen + 1#6 }, false)) := by
  unfold push
  split
  · next h => exact .inl ⟨h, rfl⟩
  · next h => exact .inr ⟨h, rfl⟩

@[simp] theorem push_buf (x : Byte) (s : State) : (push x s).1.buf = Memory.write s.buf s.bufLen.toNat x := by
  rcases push_cases x s with ⟨-, h⟩ | ⟨-, h⟩ <;> simp [h]

/-- `BUFLEN` advances by one and wraps from 63 to 0 (10_state.md R33). -/
@[simp] theorem push_bufLen (x : Byte) (s : State) : (push x s).1.bufLen = s.bufLen + 1#6 := by
  rcases push_cases x s with ⟨h63, h⟩ | ⟨-, h⟩
  · simp [h, h63]
  · simp [h]

@[simp] theorem push_bitLen (x : Byte) (s : State) :
    (push x s).1.bitLen = if s.bufLen = 63#6 then s.bitLen + 512#64 else s.bitLen := by
  rcases push_cases x s with ⟨h63, h⟩ | ⟨h63, h⟩ <;> simp [h, h63]

@[simp] theorem push_h (x : Byte) (s : State) :
    (push x s).1.h = if s.bufLen = 63#6 then compress s.h (fun p => if p = s.bufLen then x else s.block p) else s.h := by
  rcases push_cases x s with ⟨h63, h⟩ | ⟨h63, h⟩
  · rw [h, absorbBlock_h, block_writeBuf, if_pos h63, writeBuf_h]
  · simp [h, h63]

@[simp] theorem push_phase (x : Byte) (s : State) : (push x s).1.phase = s.phase := by
  rcases push_cases x s with ⟨-, h⟩ | ⟨-, h⟩ <;> simp [h]

@[simp] theorem push_errProtocol (x : Byte) (s : State) : (push x s).1.errProtocol = s.errProtocol := by
  rcases push_cases x s with ⟨-, h⟩ | ⟨-, h⟩ <;> simp [h]

@[simp] theorem push_lenOvf (x : Byte) (s : State) : (push x s).1.lenOvf = s.lenOvf := by
  rcases push_cases x s with ⟨-, h⟩ | ⟨-, h⟩ <;> simp [h]

@[simp] theorem push_rsp (x : Byte) (s : State) : (push x s).1.rsp = s.rsp := by
  rcases push_cases x s with ⟨-, h⟩ | ⟨-, h⟩ <;> simp [h]

@[simp] theorem push_inputs (x : Byte) (s : State) : (push x s).1.inputs = s.inputs := by
  rcases push_cases x s with ⟨-, h⟩ | ⟨-, h⟩ <;> simp [h]

@[simp] theorem push_bufEpoch (x : Byte) (s : State) : (push x s).1.bufEpoch = s.bufEpoch := by
  rcases push_cases x s with ⟨-, h⟩ | ⟨-, h⟩ <;> simp [h]

@[simp] theorem push_wrapped (x : Byte) (s : State) :
    (push x s).2 = (decide (s.bufLen = 63#6) && carry512 s.bitLen) := by
  rcases push_cases x s with ⟨h63, h⟩ | ⟨h63, h⟩ <;> simp [h, h63]

theorem push_bufByte (x : Byte) (s : State) (p : Nat) :
    (push x s).1.bufByte p = if p = s.bufLen.toNat then x else s.bufByte p := by
  rw [← bufByte_writeBuf]
  exact bufByte_congr (by simp) (by simp) p

/-! ## Several PUSHes -/

@[simp] theorem pushAll_nil (s : State) : pushAll [] s = s := rfl

theorem pushAll_cons (x : Byte) (xs : List Byte) (s : State) : pushAll (x :: xs) s = pushAll xs (push x s).1 := rfl

theorem pushAll_append (xs ys : List Byte) (s : State) : pushAll (xs ++ ys) s = pushAll ys (pushAll xs s) := by
  simp [pushAll]

/-- A run of PUSHes writes no register but `H`, `BUF`, `BUFLEN` and `BITLEN`. -/
theorem pushAll_frame (xs : List Byte) (s : State) :
    (pushAll xs s).phase = s.phase ∧ (pushAll xs s).errProtocol = s.errProtocol ∧
    (pushAll xs s).lenOvf = s.lenOvf ∧ (pushAll xs s).rsp = s.rsp ∧
    (pushAll xs s).inputs = s.inputs ∧ (pushAll xs s).bufEpoch = s.bufEpoch := by
  induction xs generalizing s with
  | nil => simp
  | cons x xs ih => simpa [pushAll_cons] using ih (push x s).1

@[simp] theorem pushAll_phase (xs : List Byte) (s : State) : (pushAll xs s).phase = s.phase := (pushAll_frame xs s).1
@[simp] theorem pushAll_errProtocol (xs : List Byte) (s : State) : (pushAll xs s).errProtocol = s.errProtocol :=
  (pushAll_frame xs s).2.1
@[simp] theorem pushAll_lenOvf (xs : List Byte) (s : State) : (pushAll xs s).lenOvf = s.lenOvf :=
  (pushAll_frame xs s).2.2.1
@[simp] theorem pushAll_rsp (xs : List Byte) (s : State) : (pushAll xs s).rsp = s.rsp := (pushAll_frame xs s).2.2.2.1
@[simp] theorem pushAll_inputs (xs : List Byte) (s : State) : (pushAll xs s).inputs = s.inputs :=
  (pushAll_frame xs s).2.2.2.2.1
@[simp] theorem pushAll_bufEpoch (xs : List Byte) (s : State) : (pushAll xs s).bufEpoch = s.bufEpoch :=
  (pushAll_frame xs s).2.2.2.2.2

theorem pushAll_bufLen (xs : List Byte) (s : State) :
    (pushAll xs s).bufLen = s.bufLen + BitVec.ofNat 6 xs.length := by
  induction xs generalizing s with
  | nil => simp
  | cons x xs ih =>
    rw [pushAll_cons, ih, push_bufLen, List.length_cons, BitVec.ofNat_add]
    ac_rfl

/-- Every 64th byte adds 512 to `BITLEN` (10_state.md R26). -/
theorem pushAll_bitLen (xs : List Byte) (s : State) :
    (pushAll xs s).bitLen = s.bitLen + BitVec.ofNat 64 (512 * ((s.bufLen.toNat + xs.length) / 64)) := by
  induction xs generalizing s with
  | nil => simp [Nat.div_eq_of_lt s.bufLen.isLt]
  | cons x xs ih =>
    have hlt := s.bufLen.isLt
    rw [pushAll_cons, ih, push_bitLen, push_bufLen, BitVec.toNat_add, List.length_cons]
    by_cases h63 : s.bufLen = 63#6
    · rw [if_pos h63, h63, BitVec.add_assoc, show 512#64 = BitVec.ofNat 64 512 from rfl, ← BitVec.ofNat_add]
      congr 2
      simp
      omega
    · have h63' : s.bufLen.toNat ≠ 63 := fun h => h63 (BitVec.eq_of_toNat_eq h)
      rw [if_neg h63]
      congr 2
      simp
      omega

theorem pushAll_wf (xs : List Byte) (s : State) (h : Memory.wf s.buf = true) :
    Memory.wf (pushAll xs s).buf = true := by
  induction xs generalizing s with
  | nil => exact h
  | cons x xs ih => exact ih _ (by simpa using wf_write x s.bufLen.isLt h)

/-- PUSHes that fill the current block up to its end: one compression, of the buffered bytes followed by the pushed
ones. -/
theorem pushAll_fill (xs : List Byte) (s : State) (hne : xs ≠ []) (hlen : s.bufLen.toNat + xs.length = 64) :
    let blk : Block := fun p => if p < s.bufLen then s.block p else xs.getD (p.toNat - s.bufLen.toNat) 0#8
    (pushAll xs s).h = compress s.h blk ∧ (pushAll xs s).bitLen = s.bitLen + 512#64 ∧ (pushAll xs s).bufLen = 0#6 ∧
    (pushAll xs s).block = blk ∧ ∀ p, 64 ≤ p → (pushAll xs s).bufByte p = s.bufByte p := by
  induction xs generalizing s with
  | nil => exact absurd rfl hne
  | cons x xs ih =>
    rw [pushAll_cons]
    by_cases h63 : s.bufLen = 63#6
    · have hxs : xs = [] := by
        have : s.bufLen.toNat = 63 := by rw [h63]; rfl
        exact List.eq_nil_of_length_eq_zero (by simp at hlen; omega)
      subst hxs
      have key : (fun p : BitVec 6 => if p < s.bufLen then s.block p else [x].getD (p.toNat - s.bufLen.toNat) 0#8) =
          fun p => if p = s.bufLen then x else s.block p := by
        funext p
        have hs : s.bufLen.toNat = 63 := by rw [h63]; rfl
        have hp := p.isLt
        by_cases hpe : p = s.bufLen
        · subst hpe; simp
        · have : p.toNat ≠ 63 := fun h => hpe (BitVec.eq_of_toNat_eq (h.trans hs.symm))
          rw [if_pos (by rw [BitVec.lt_def]; omega), if_neg hpe]
      refine ⟨?_, ?_, ?_, ?_, ?_⟩
      · rw [key]; simp [h63]
      · simp [h63]
      · simp [h63]
      · rw [key]; funext p
        simp [State.block, push_bufByte, BitVec.toNat_inj]
      · intro p hp
        have := s.bufLen.isLt
        simp [push_bufByte, show p ≠ s.bufLen.toNat by omega]
    · have hlt := s.bufLen.isLt
      have h63' : s.bufLen.toNat ≠ 63 := fun h => h63 (BitVec.eq_of_toNat_eq h)
      have hs1 : (s.bufLen + 1#6).toNat = s.bufLen.toNat + 1 := by
        rw [BitVec.toNat_add]; simp; omega
      have hxs : xs ≠ [] := by rintro rfl; simp at hlen; omega
      obtain ⟨e₁, e₂, e₃, e₄, e₅⟩ := ih (push x s).1 hxs (by simp [hs1]; simp at hlen; omega)
      have key : (fun p : BitVec 6 => if p < (push x s).1.bufLen then (push x s).1.block p
            else xs.getD (p.toNat - (push x s).1.bufLen.toNat) 0#8) =
          fun p => if p < s.bufLen then s.block p else (x :: xs).getD (p.toNat - s.bufLen.toNat) 0#8 := by
        funext p
        simp only [push_bufLen, BitVec.lt_def, hs1, State.block, push_bufByte]
        by_cases hp : p.toNat < s.bufLen.toNat
        · simp [hp, show p.toNat < s.bufLen.toNat + 1 by omega, show p.toNat ≠ s.bufLen.toNat by omega]
        · by_cases hpe : p.toNat = s.bufLen.toNat
          · simp [hpe]
          · rw [if_neg (by omega), if_neg hp, show p.toNat - s.bufLen.toNat = p.toNat - (s.bufLen.toNat + 1) + 1 by omega]
            rfl
      simp only [key] at e₁ e₄
      refine ⟨by simpa [h63] using e₁, by simpa [h63] using e₂, e₃, e₄, ?_⟩
      intro p hp
      rw [e₅ p hp, push_bufByte, if_neg (by omega)]

end Sys2Proof.Machine
end

