-- ==== Sys2Proof/Laws/Exec.lean ====
section
/-! SUPPORT. What a command does, once: each meaning in each phase, the fields of an accepted APPEND and of an accepted
FINALIZE, and what one step is on each request of the pins. -/

namespace Sys2Proof.Machine

/-! ## The meanings by phase -/

@[simp] theorem exec_init (s : State) : exec .init s = .next (s.construct initialHash) := rfl

@[simp] theorem exec_initIv (iv : HashState) (s : State) : exec (.initIv iv) s = .next (s.construct iv) := rfl

theorem exec_append_accepting {s : State} (b : Byte) (h : s.phase = .accepting) :
    exec (.append b) s = .next (s.acceptByte b) := by simp [exec, execAppend, h]

theorem exec_append_finalized {s : State} (b : Byte) (h : s.phase = .finalized) :
    exec (.append b) s = .next s.rejectCommand := by simp [exec, execAppend, h]

theorem exec_finalize_accepting {s : State} (h : s.phase = .accepting) :
    exec .finalize s = .next s.finalizeMessage := by simp [exec, execFinalize, h]

theorem exec_finalize_finalized {s : State} (h : s.phase = .finalized) :
    exec .finalize s = .next s.rejectCommand := by simp [exec, execFinalize, h]

/-- Everything a command can do: construct, absorb a byte, finalize the message, or be rejected. -/
theorem exec_cases (i : Instr) (s : State) :
    (i = .init ∧ exec i s = .next (s.construct initialHash)) ∨
    (∃ iv, i = .initIv iv ∧ exec i s = .next (s.construct iv)) ∨
    (∃ b, i = .append b ∧ s.phase = .accepting ∧ exec i s = .next (s.acceptByte b)) ∨
    (i = .finalize ∧ s.phase = .accepting ∧ exec i s = .next s.finalizeMessage) ∨
    ((i = .finalize ∨ ∃ b, i = .append b) ∧ s.phase = .finalized ∧ exec i s = .next s.rejectCommand) := by
  cases i with
  | init => simp
  | initIv iv => simp
  | append b =>
    cases h : s.phase with
    | accepting => simp [exec_append_accepting b h]
    | finalized => simp [exec_append_finalized b h]
  | finalize =>
    cases h : s.phase with
    | accepting => simp [exec_finalize_accepting h]
    | finalized => simp [exec_finalize_finalized h]

/-! ## An accepted APPEND, field by field -/

@[simp] theorem acceptByte_h (s : State) (b : Byte) : (s.acceptByte b).h = (push b s).1.h := rfl
@[simp] theorem acceptByte_buf (s : State) (b : Byte) : (s.acceptByte b).buf = (push b s).1.buf := rfl
@[simp] theorem acceptByte_bufLen (s : State) (b : Byte) : (s.acceptByte b).bufLen = (push b s).1.bufLen := rfl
@[simp] theorem acceptByte_bitLen (s : State) (b : Byte) : (s.acceptByte b).bitLen = (push b s).1.bitLen := rfl
@[simp] theorem acceptByte_bufEpoch (s : State) (b : Byte) : (s.acceptByte b).bufEpoch = (push b s).1.bufEpoch := rfl

@[simp] theorem acceptByte_phase (s : State) (b : Byte) : (s.acceptByte b).phase = s.phase := by
  simp [State.acceptByte]

@[simp] theorem acceptByte_errProtocol (s : State) (b : Byte) : (s.acceptByte b).errProtocol = s.errProtocol := by
  simp [State.acceptByte]

@[simp] theorem acceptByte_inputs (s : State) (b : Byte) : (s.acceptByte b).inputs = s.inputs := by
  simp [State.acceptByte]

@[simp] theorem acceptByte_lenOvf (s : State) (b : Byte) :
    (s.acceptByte b).lenOvf = (s.lenOvf || decide (s.bufLen = 63#6) && carry512 s.bitLen) := by
  simp [State.acceptByte]

@[simp] theorem acceptByte_rsp (s : State) (b : Byte) :
    (s.acceptByte b).rsp = some (executedResponse (s.acceptByte b).lenOvf) := rfl

theorem acceptByte_bufByte (s : State) (b : Byte) (p : Nat) :
    (s.acceptByte b).bufByte p = if p = s.bufLen.toNat then b else s.bufByte p := by
  rw [← push_bufByte]
  exact bufByte_congr (by simp) (by simp) p

/-! ## An accepted FINALIZE, field by field -/

/-- The state after the padding has been pushed. -/
def padded (s : State) : State := pushAll (padding s.totalBits (zeroCount s.bufLen)) s

@[simp] theorem finalizeMessage_h (s : State) : s.finalizeMessage.h = (padded s).h := rfl
@[simp] theorem finalizeMessage_buf (s : State) : s.finalizeMessage.buf = (padded s).buf := rfl
@[simp] theorem finalizeMessage_bufLen (s : State) : s.finalizeMessage.bufLen = (padded s).bufLen := rfl
@[simp] theorem finalizeMessage_bitLen (s : State) : s.finalizeMessage.bitLen = (padded s).bitLen := rfl
@[simp] theorem finalizeMessage_phase (s : State) : s.finalizeMessage.phase = .finalized := rfl

@[simp] theorem finalizeMessage_errProtocol (s : State) : s.finalizeMessage.errProtocol = s.errProtocol := by
  simp [State.finalizeMessage]

@[simp] theorem finalizeMessage_lenOvf (s : State) : s.finalizeMessage.lenOvf = s.lenOvf := by
  simp [State.finalizeMessage]

@[simp] theorem finalizeMessage_rsp (s : State) : s.finalizeMessage.rsp = some (executedResponse s.lenOvf) := by
  simp [State.finalizeMessage]

@[simp] theorem finalizeMessage_inputs (s : State) : s.finalizeMessage.inputs = s.inputs := by
  simp [State.finalizeMessage]

@[simp] theorem finalizeMessage_bufEpoch (s : State) : s.finalizeMessage.bufEpoch = s.bufEpoch := by
  simp [State.finalizeMessage]

theorem finalizeMessage_bufByte (s : State) (p : Nat) : s.finalizeMessage.bufByte p = (padded s).bufByte p :=
  bufByte_congr (by simp) (by simp [padded]) p

/-! ## The padding -/

@[simp] theorem be64_length (v : BitVec 64) : (be64 v).length = 8 := rfl

theorem padding_length (total : BitVec 64) (z : Nat) : (padding total z).length = z + 9 := by simp [padding]

/-- The padding fills the buffered bytes up to one block, or up to two (45_finalize.md R161, R165). -/
theorem bufLen_add_padding (total : BitVec 64) (l : BitVec 6) :
    l.toNat + (padding total (zeroCount l)).length = if l.toNat < 56 then 64 else 128 := by
  have := l.isLt
  rw [padding_length, zeroCount]
  split <;> omega

@[simp] theorem padded_bufLen (s : State) : (padded s).bufLen = 0#6 := by
  apply BitVec.eq_of_toNat_eq
  have h := bufLen_add_padding s.totalBits s.bufLen
  rw [padded, pushAll_bufLen, BitVec.toNat_add, BitVec.toNat_ofNat]
  split at h <;> simp <;> omega

/-- FINALIZE's padding adds 512 or 1024 to `BITLEN` (45_finalize.md R169). -/
theorem padded_bitLen (s : State) :
    (padded s).bitLen = if s.bufLen.toNat < 56 then s.bitLen + 512#64 else s.bitLen + 1024#64 := by
  rw [padded, pushAll_bitLen, bufLen_add_padding]
  split <;> rfl

/-! ## No command reads or writes the inputs -/

@[simp] theorem block_withInputs (s : State) (l : List PortSample) : State.block { s with inputs := l } = s.block := rfl

theorem push_withInputs (x : Byte) (s : State) (l : List PortSample) :
    push x { s with inputs := l } = ({ (push x s).1 with inputs := l }, (push x s).2) := by
  apply Prod.ext
  · apply State.ext <;> simp
  · simp

theorem pushAll_withInputs (xs : List Byte) (s : State) (l : List PortSample) :
    pushAll xs { s with inputs := l } = { pushAll xs s with inputs := l } := by
  induction xs generalizing s with
  | nil => rfl
  | cons x xs ih => rw [pushAll_cons, pushAll_cons, push_withInputs, ih]

/-- The host's later inputs play no part in a command. -/
theorem exec_withInputs (i : Instr) (s : State) (l : List PortSample) {t : State} (h : exec i s = .next t) :
    exec i { s with inputs := l } = .next { t with inputs := l } := by
  rcases exec_cases i s with ⟨hi, h'⟩ | ⟨iv, hi, h'⟩ | ⟨b, hi, hp, h'⟩ | ⟨hi, hp, h'⟩ | ⟨hi, hp, h'⟩
  all_goals rw [h'] at h; cases h
  · rw [hi, exec_init]; rfl
  · rw [hi, exec_initIv]; rfl
  · rw [hi, exec_append_accepting b (by simpa using hp)]
    simp only [State.acceptByte, push_withInputs]
    rfl
  · rw [hi, exec_finalize_accepting (by simpa using hp)]
    have hz : State.totalBits { s with inputs := l } = s.totalBits := rfl
    simp only [State.finalizeMessage, pushAll_withInputs, hz]
    rfl
  · rcases hi with hi | ⟨b, hi⟩
    · rw [hi, exec_finalize_finalized (by simpa using hp)]; rfl
    · rw [hi, exec_append_finalized b (by simpa using hp)]; rfl

theorem exec_inputs {i : Instr} {s t : State} (h : exec i s = .next t) : t.inputs = s.inputs := by
  rcases exec_cases i s with ⟨-, h'⟩ | ⟨_, -, h'⟩ | ⟨_, -, -, h'⟩ | ⟨-, -, h'⟩ | ⟨-, -, h'⟩
  all_goals rw [h'] at h; cases h; simp

/-! ## One step -/

theorem step_idle {s : State} (h : s.nextRequest = .idle) : step s = .next s.dropInput := by simp [step, h]

theorem step_reset {s : State} (h : s.nextRequest = .reset) : step s = .next s.dropInput.hardwareReset := by
  simp [step, h]

theorem step_command {s : State} {t : Transfer} (h : s.nextRequest = .command t) :
    step s = exec (decode t) s.dropInput := by simp [step, h]

@[simp] theorem nextRequest_offer (s : State) (t : Transfer) : (s.offer t).nextRequest = .command t := rfl

@[simp] theorem dropInput_offer (s : State) (t : Transfer) : (s.offer t).dropInput = s := rfl

/-- A command the host presents next is the step's meaning. -/
theorem step_offer (s : State) (t : Transfer) : step (s.offer t) = exec (decode t) s := by
  rw [step_command (nextRequest_offer s t), dropInput_offer]

/-- Every step is a drop of the sample, a hardware reset, or one command. -/
theorem step_cases (s : State) :
    step s = .next s.dropInput ∨ step s = .next s.dropInput.hardwareReset ∨ ∃ i, step s = exec i s.dropInput := by
  cases h : s.nextRequest with
  | idle => exact .inl (step_idle h)
  | reset => exact .inr (.inl (step_reset h))
  | command t => exact .inr (.inr ⟨decode t, step_command h⟩)

end Sys2Proof.Machine
end

