-- ==== Sys2Proof/Laws/Message.lean ====
section
/-! SUPPORT. Bytes pushed after the buffered ones: the fold of COMPRESS over the whole blocks of both together, the rest
buffered (44_append.md R154); APPENDs as PUSHes; the padding of FINALIZE as such a push. -/

namespace Sys2Proof.Machine

/-! ## Folding over blocks -/

@[simp] theorem foldBlocks_zero (h : HashState) (m : List Byte) : foldBlocks h m 0 = h := rfl

theorem foldBlocks_succ (h : HashState) (m : List Byte) (n : Nat) :
    foldBlocks h m (n + 1) = compress (foldBlocks h m n) (blockAt m n) := by
  simp [foldBlocks, List.range_succ]

theorem blockAt_append {m : List Byte} (l : List Byte) {k : Nat} (h : 64 * (k + 1) ≤ m.length) :
    blockAt (m ++ l) k = blockAt m k := by
  funext p
  have := p.isLt
  simp [blockAt, List.getElem?_append_left (show 64 * k + p.toNat < m.length by omega)]

/-- Blocks that lie inside a message do not see what follows it. -/
theorem foldBlocks_append (h : HashState) {m : List Byte} (l : List Byte) {n : Nat} (hn : 64 * n ≤ m.length) :
    foldBlocks h (m ++ l) n = foldBlocks h m n := by
  induction n with
  | zero => simp
  | succ n ih => rw [foldBlocks_succ, foldBlocks_succ, ih (by omega), blockAt_append l hn]

/-! ## Bytes pushed after the buffered ones -/

@[simp] theorem buffered_length (s : State) : s.buffered.length = s.bufLen.toNat := by simp [State.buffered]

theorem buffered_empty {s : State} (h : s.bufLen = 0#6) : s.buffered = [] := by simp [State.buffered, h]

/-- The state `t` is the one that has absorbed `m` from the accumulator and counter of `s`: whole blocks compressed in
order, the rest buffered. -/
structure Absorbed (s : State) (m : List Byte) (t : State) : Prop where
  h : t.h = foldBlocks s.h m (m.length / 64)
  bufLen : t.bufLen.toNat = m.length % 64
  bitLen : t.bitLen = s.bitLen + BitVec.ofNat 64 (512 * (m.length / 64))
  bytes : ∀ p, p < m.length % 64 → t.bufByte p = m.getD (64 * (m.length / 64) + p) 0#8

/-- Every state has absorbed its own buffered bytes. -/
theorem absorbed_buffered (s : State) : Absorbed s s.buffered s := by
  have hlt := s.bufLen.isLt
  have hd : s.bufLen.toNat / 64 = 0 := by omega
  have hm : s.bufLen.toNat % 64 = s.bufLen.toNat := by omega
  constructor <;> simp only [buffered_length, hd, hm]
  · rw [foldBlocks_zero]
  · simp
  · intro p hp
    simp [State.buffered, hp]

/-- One more byte. -/
theorem absorbed_push {s t : State} {m : List Byte} (x : Byte) (a : Absorbed s m t) :
    Absorbed s (m ++ [x]) (push x t).1 := by
  have hb := a.bufLen
  have hlt := t.bufLen.isLt
  by_cases h63 : t.bufLen = 63#6
  · have hn : m.length % 64 = 63 := by rw [← hb, h63]; rfl
    have hlen : (m ++ [x]).length / 64 = m.length / 64 + 1 := by simp; omega
    refine ⟨?_, ?_, ?_, ?_⟩
    · rw [hlen, foldBlocks_succ, foldBlocks_append _ _ (by omega), push_h, if_pos h63, ← a.h]
      congr 1
      funext p
      have hp := p.isLt
      by_cases hpe : p = t.bufLen
      · subst hpe
        simp [blockAt, show 64 * (m.length / 64) + t.bufLen.toNat = m.length by omega]
      · have : p.toNat ≠ 63 := fun h => hpe (BitVec.eq_of_toNat_eq (by omega))
        rw [if_neg hpe, State.block, a.bytes _ (by omega), blockAt]
        simp [List.getElem?_append_left (show 64 * (m.length / 64) + p.toNat < m.length by omega)]
    · simp [h63]; omega
    · rw [push_bitLen, if_pos h63, a.bitLen, hlen, Nat.mul_add, BitVec.ofNat_add, BitVec.add_assoc]
    · intro p hp
      simp at hp; omega
  · have hn : m.length % 64 ≠ 63 := fun h => h63 (BitVec.eq_of_toNat_eq (by rw [hb, h]; rfl))
    have hlen : (m ++ [x]).length / 64 = m.length / 64 := by simp; omega
    refine ⟨?_, ?_, ?_, ?_⟩
    · rw [hlen, foldBlocks_append _ _ (by omega), push_h, if_neg h63, a.h]
    · rw [push_bufLen, BitVec.toNat_add]; simp; omega
    · rw [push_bitLen, if_neg h63, a.bitLen, hlen]
    · intro p hp
      rw [hlen, push_bufByte, hb]
      split
      · next h => subst h; simp [Nat.div_add_mod]
      · next h =>
        simp at hp
        rw [a.bytes p (by omega)]
        simp [List.getElem?_append_left (show 64 * (m.length / 64) + p < m.length by omega)]

/-- PUSHes from any fill of the buffer: the buffered bytes and the pushed ones together. -/
theorem absorbed_buffered_pushAll (s : State) (m : List Byte) : Absorbed s (s.buffered ++ m) (pushAll m s) := by
  induction m using List.reverseRecOn with
  | nil => simpa using absorbed_buffered s
  | append_singleton m x ih => rw [pushAll_append, ← List.append_assoc]; exact absorbed_push x ih

theorem absorbed_pushAll {s : State} (m : List Byte) (h : s.bufLen = 0#6) : Absorbed s m (pushAll m s) := by
  simpa [buffered_empty h] using absorbed_buffered_pushAll s m

/-- The accumulator after FINALIZE's padding: COMPRESS folded over the buffered bytes and the padding. -/
theorem padded_h (s : State) :
    let bytes := s.buffered ++ padding s.totalBits (zeroCount s.bufLen)
    (padded s).h = foldBlocks s.h bytes (bytes.length / 64) :=
  (absorbed_buffered_pushAll s _).h

/-! ## APPENDs as PUSHes -/

/-- Two states alike in what PUSH reads and writes. -/
structure SameCore (s t : State) : Prop where
  h : t.h = s.h
  buf : t.buf = s.buf
  bufLen : t.bufLen = s.bufLen
  bitLen : t.bitLen = s.bitLen
  bufEpoch : t.bufEpoch = s.bufEpoch

theorem SameCore.refl (s : State) : SameCore s s := ⟨rfl, rfl, rfl, rfl, rfl⟩

theorem SameCore.trans {s t u : State} (a : SameCore s t) (b : SameCore t u) : SameCore s u :=
  ⟨b.h.trans a.h, b.buf.trans a.buf, b.bufLen.trans a.bufLen, b.bitLen.trans a.bitLen, b.bufEpoch.trans a.bufEpoch⟩

theorem SameCore.block {s t : State} (a : SameCore s t) : t.block = s.block :=
  funext fun p => bufByte_congr a.buf a.bufEpoch p.toNat

theorem SameCore.push {s t : State} (x : Byte) (a : SameCore s t) :
    SameCore (push x s).1 (Sys2Proof.Machine.push x t).1 := by
  constructor <;> simp [a.h, a.buf, a.bufLen, a.bitLen, a.bufEpoch, a.block]

/-- An accepted APPEND is a PUSH on the core registers. -/
theorem acceptByte_sameCore (s : State) (b : Byte) : SameCore (push b s).1 (s.acceptByte b) :=
  ⟨rfl, rfl, rfl, rfl, rfl⟩

/-- The accepted APPENDs of a byte sequence. -/
def acceptAll (m : List Byte) (s : State) : State := m.foldl State.acceptByte s

theorem acceptAll_append (m l : List Byte) (s : State) : acceptAll (m ++ l) s = acceptAll l (acceptAll m s) := by
  simp [acceptAll]

theorem acceptAll_sameCore (m : List Byte) (s : State) : SameCore (pushAll m s) (acceptAll m s) := by
  induction m using List.reverseRecOn with
  | nil => exact SameCore.refl s
  | append_singleton m x ih =>
    rw [pushAll_append, acceptAll_append]
    exact (ih.push x).trans (acceptByte_sameCore _ x)

@[simp] theorem acceptAll_phase (m : List Byte) (s : State) : (acceptAll m s).phase = s.phase := by
  induction m using List.reverseRecOn with
  | nil => rfl
  | append_singleton m x ih => rw [acceptAll_append]; exact (acceptByte_phase _ x).trans ih

@[simp] theorem acceptAll_errProtocol (m : List Byte) (s : State) :
    (acceptAll m s).errProtocol = s.errProtocol := by
  induction m using List.reverseRecOn with
  | nil => rfl
  | append_singleton m x ih => rw [acceptAll_append]; exact (acceptByte_errProtocol _ x).trans ih

@[simp] theorem acceptAll_inputs (m : List Byte) (s : State) : (acceptAll m s).inputs = s.inputs := by
  induction m using List.reverseRecOn with
  | nil => rfl
  | append_singleton m x ih => rw [acceptAll_append]; exact (acceptByte_inputs _ x).trans ih

@[simp] theorem acceptAll_bufEpoch (m : List Byte) (s : State) : (acceptAll m s).bufEpoch = s.bufEpoch := by
  rw [(acceptAll_sameCore m s).bufEpoch, pushAll_bufEpoch]

/-- APPENDs from any fill of the buffer absorb bytes as PUSHes do. -/
theorem absorbed_buffered_acceptAll (s : State) (m : List Byte) :
    Absorbed s (s.buffered ++ m) (acceptAll m s) := by
  have a := absorbed_buffered_pushAll s m
  have c := acceptAll_sameCore m s
  exact ⟨c.h.trans a.h, by rw [c.bufLen]; exact a.bufLen, c.bitLen.trans a.bitLen,
    fun p hp => by rw [bufByte_congr c.buf c.bufEpoch]; exact a.bytes p hp⟩

theorem absorbed_acceptAll {s : State} (m : List Byte) (h : s.bufLen = 0#6) : Absorbed s m (acceptAll m s) := by
  simpa [buffered_empty h] using absorbed_buffered_acceptAll s m

/-- `LEN_OVF` after APPENDs: set when the bits compressed in all reach 2^64 (10_state.md R29). -/
theorem acceptAll_lenOvf (m : List Byte) (s : State) :
    (acceptAll m s).lenOvf =
      (s.lenOvf || decide (2 ^ 64 ≤ s.bitLen.toNat + 512 * ((s.bufLen.toNat + m.length) / 64))) := by
  have hlt := s.bufLen.isLt
  have hbl := s.bitLen.isLt
  induction m using List.reverseRecOn with
  | nil =>
    have : s.bufLen.toNat / 64 = 0 := by omega
    simp [acceptAll, this, hbl]
  | append_singleton m x ih =>
    have a := absorbed_buffered_acceptAll s m
    have hb := a.bufLen
    have hl := congrArg BitVec.toNat a.bitLen
    rw [List.length_append, buffered_length] at hb hl
    rw [BitVec.toNat_add, BitVec.toNat_ofNat] at hl
    have h63 : (acceptAll m s).bufLen = 63#6 ↔ (s.bufLen.toNat + m.length) % 64 = 63 := by
      rw [← hb]
      exact ⟨fun h => by rw [h]; rfl, fun h => BitVec.eq_of_toNat_eq h⟩
    rw [acceptAll_append]
    show ((acceptAll m s).acceptByte x).lenOvf = _
    rw [acceptByte_lenOvf, ih, Bool.or_assoc]
    congr 1
    rw [Bool.eq_iff_iff]
    simp only [Bool.or_eq_true, Bool.and_eq_true, decide_eq_true_eq, h63, carry512, hl, List.length_append,
      List.length_singleton]
    omega

/-- After APPENDs the pending response tells `LEN_OVF` (30_encoding.md R75). -/
theorem acceptAll_rsp {s : State} (m : List Byte) (h : s.rsp = some (executedResponse s.lenOvf)) :
    (acceptAll m s).rsp = some (executedResponse (acceptAll m s).lenOvf) := by
  induction m using List.reverseRecOn with
  | nil => exact h
  | append_singleton m x ih => rw [acceptAll_append]; rfl

theorem acceptAll_rsp_of_ne_nil {m : List Byte} (s : State) (h : m ≠ []) :
    (acceptAll m s).rsp = some (executedResponse (acceptAll m s).lenOvf) := by
  induction m using List.reverseRecOn with
  | nil => exact absurd rfl h
  | append_singleton m x ih => rw [acceptAll_append]; rfl

/-- In phase ACCEPTING a sequence of APPENDs completes and absorbs every byte. -/
theorem runCommands_appends {s : State} (m : List Byte) (h : s.phase = .accepting) :
    runCommands (appends m) s = .next (acceptAll m s) := by
  induction m generalizing s with
  | nil => rfl
  | cons x m ih =>
    show (match exec (.append x) s with
      | .next t => runCommands (appends m) t
      | .fault r => .fault r
      | .refused r => .refused r) = _
    rw [exec_append_accepting x h]
    exact ih (by simp [h])

/-- In phase FINALIZED a sequence of APPENDs is one rejection (60_exceptions.md R187). -/
theorem runCommands_appends_finalized {s : State} (m : List Byte) (h : s.phase = .finalized) :
    runCommands (appends m) s = .next (if m = [] then s else s.rejectCommand) := by
  induction m generalizing s with
  | nil => rfl
  | cons x m ih =>
    show (match exec (.append x) s with
      | .next t => runCommands (appends m) t
      | .fault r => .fault r
      | .refused r => .refused r) = _
    rw [exec_append_finalized x h]
    exact (ih (s := s.rejectCommand) h).trans (by cases m <;> rfl)

/-- A command sequence run in two parts. -/
theorem runCommands_append (is js : List Instr) (s : State) :
    runCommands (is ++ js) s =
      match runCommands is s with
      | .next t => runCommands js t
      | .fault r => .fault r
      | .refused r => .refused r := by
  induction is generalizing s with
  | nil => rfl
  | cons i is ih =>
    simp only [List.cons_append, runCommands]
    cases exec i s <;> simp [ih]

end Sys2Proof.Machine
end

