-- ==== Sys2Proof/Laws/PerInstr.lean ====
section
/-! SUPPORT. A fact about each command as syntax: the canonical encoding matches the command's row of the opcode table,
and the command is well formed (30_encoding.md R72, R73). One lemma for each constructor. -/

/-- The command's canonical word, masked, is its row's pattern; the command is well formed. -/
def Sys2Proof.Laws.TableRow.Statement (i : Sys2Proof.Instr) : Prop :=
  (Sys2Proof.encode i).cmd &&& (Sys2Proof.opcodeRow i).mask = (Sys2Proof.opcodeRow i).pat ∧ i.wf = true

namespace Sys2Proof.Laws.TableRow

theorem init : Statement .init := ⟨rfl, rfl⟩

theorem initIv (iv : HashState) : Statement (.initIv iv) := ⟨by simp only [encode, opcodeRow]; decide, rfl⟩

theorem append (byte : Byte) : Statement (.append byte) := by
  refine ⟨?_, rfl⟩
  simp only [encode, opcodeRow]
  revert byte
  decide +kernel

theorem finalize : Statement .finalize := ⟨rfl, rfl⟩

end Sys2Proof.Laws.TableRow
end

