-- ==== Sys2Proof/Tests/Slice0.lean ====
section
/-! SUPPORT. The model's own tests: expected values are the spec's printed ones (95_test_vectors.md, 30_encoding.md R81,
40_word_functions.md), each about one word or one step; then a witness for the hypotheses of each statement. -/

namespace Sys2Proof.Tests
open Sys2Proof.Machine

/-! ## Helpers -/

/-- A state with the given bytes buffered from index 0 and every flag clear. -/
def withBytes (bytes : List Byte) (h : HashState) (bitLen : BitVec 64) : State :=
  { State.reset with
    h := h, buf := bytes.zipIdx.map fun c => (c.2, c.1), bufLen := BitVec.ofNat 6 bytes.length, bitLen := bitLen }

/-- A state after an accepted FINALIZE. -/
def afterFinalize : State := { State.reset with phase := .finalized, rsp := some .ok }

/-- What the host sees after a command that completed: `h_out`, `status`, `rsp_code`. -/
def seen (o : Host.Outcome State Fault Refusal) : Option (BitVec 256 × BitVec 3 × Option (BitVec 2)) :=
  match o with
  | .next t => some (t.hOut, t.status, t.rspCode)
  | .fault _ => none
  | .refused _ => none

/-- The hidden counters after a command that completed: `BUFLEN`, `BITLEN`. -/
def counters (o : Host.Outcome State Fault Refusal) : Option (BitVec 6 × BitVec 64) :=
  match o with
  | .next t => some (t.bufLen, t.bitLen)
  | .fault _ => none
  | .refused _ => none

/-- The "abc" block (95_test_vectors.md section 3). -/
def abcBlock : Block := fun p =>
  if p = 0#6 then 0x61#8 else if p = 1#6 then 0x62#8 else if p = 2#6 then 0x63#8 else if p = 3#6 then 0x80#8
  else if p = 63#6 then 0x18#8 else 0#8

/-! ## Well-formedness: each check refuses an ill-formed term -/

/-- 0x0aa is INIT with ignored bits set: not canonical (30_encoding.md R74, R81). -/
theorem test_wordCanonical_refuses : Transfer.canonical ⟨0x0aa#10, 0⟩ = false := by decide

/-- A value on `iv_in` beside INIT is ignored, so not canonical (30_encoding.md R74). -/
theorem test_ivCanonical_refuses : Transfer.canonical ⟨0x000#10, 1⟩ = false := by decide

/-- A buffer out of order, and one with an index outside 0..63, are refused (20_memory.md R50). -/
theorem test_memory_wf_refuses :
    Memory.wf [(1, 0x61), (0, 0x62)] = false ∧ Memory.wf [(0, 0x61), (0, 0x62)] = false ∧ Memory.wf [(64, 0x61)] = false := by
  decide

/-! ## Decoding (30_encoding.md R72, R81), the words written out bit by bit -/

theorem test_decode_init : decode ⟨0b0000000000#10, 0⟩ = .init ∧ decode ⟨0b0010101010#10, 7⟩ = .init := by decide

theorem test_decode_initIv :
    decode ⟨0b0100000000#10, 0xc1059ed8367cd5073070dd17f70e5939ffc00b316858151164f98fa7befa4fa4#256⟩ =
      .initIv ⟨0xc1059ed8, 0x367cd507, 0x3070dd17, 0xf70e5939, 0xffc00b31, 0x68581511, 0x64f98fa7, 0xbefa4fa4⟩ := by
  decide

theorem test_decode_append : decode ⟨0b1001100001#10, 0⟩ = .append 0x61 ∧ decode ⟨0b1011111111#10, 0⟩ = .append 0xff := by
  decide

theorem test_decode_finalize : decode ⟨0b1100000000#10, 0⟩ = .finalize ∧ decode ⟨0b1111111111#10, 0⟩ = .finalize := by
  decide

theorem test_encode :
    encode .init = ⟨0x000, 0⟩ ∧ encode (.append 0x61) = ⟨0x261, 0⟩ ∧ encode .finalize = ⟨0x300, 0⟩ ∧
    (encode (.initIv initialHash)).ivIn = 0x6a09e667bb67ae853c6ef372a54ff53a510e527f9b05688c1f83d9ab5be0cd19#256 := by
  decide

theorem test_table_word : decodeTableWord 16 0x261 = some (.append 0x61) := by decide

/-! ## Word functions (95_test_vectors.md section 2) -/

theorem test_rotr_shr :
    rotr 0x12345678 7 = 0xf02468ac ∧ rotr 0x6a09e667 31 = 0xd413ccce ∧ shr 0x510e527f 3 = 0x0a21ca4f ∧
    shr 0x80000000 10 = 0x00200000 := by decide

theorem test_sigmas :
    ssig0 0x12345678 = 0xe7fce6ee ∧ ssig1 0x12345678 = 0xa1f78649 ∧ bsig0 0x12345678 = 0x66146474 ∧
    bsig1 0x12345678 = 0x3561abda := by decide

theorem test_ch_maj :
    ch 0xf0f0f0f0 0x12345678 0x9abcdef0 = 0x1a3c5e70 ∧ maj 0xf0f0f0f0 0xff00ff00 0x0f0f0f0f = 0xff00ff00 := by decide

theorem test_length_arithmetic :
    carry512 0xfffffffffffffe00 = true ∧ carry512 0xfffffffffffffc00 = false ∧
    (withBytes (List.replicate 63 0x61) initialHash 0xfffffffffffffe00).totalBits = 0xfffffffffffffff8 := by decide

/-! ## Schedule, round, COMPRESS (95_test_vectors.md sections 3, 4) -/

theorem test_schedule_abc :
    wWord (schedule abcBlock) 16 = 0x61626380 ∧ wWord (schedule abcBlock) 17 = 0x000f0000 ∧
    wWord (schedule abcBlock) 63 = 0x12b1edeb := by decide +kernel

theorem test_round_abc :
    round (wvInit initialHash) (kWord 0) 0x61626380 =
      ⟨0x5d6aebcd, 0x6a09e667, 0xbb67ae85, 0x3c6ef372, 0xfa2a4622, 0x510e527f, 0x9b05688c, 0x1f83d9ab⟩ := by decide

/-- Vector X3. -/
theorem test_compress_zeros :
    compress ⟨0, 0, 0, 0, 0, 0, 0, 0⟩ (fun _ => 0) =
      ⟨0x7ca51614, 0x425c3ba8, 0xce54dd2f, 0xc2020ae7, 0xb6e574d1, 0x98136d0f, 0xae7e26cc, 0xbf0be7a6⟩ := by
  decide +kernel

/-- Vector X7, the block 00 01 02 ... 3f. -/
theorem test_compress_counting :
    compress initialHash (fun p => p.setWidth 8) =
      ⟨0xfc99a2df, 0x88f42a7a, 0x7bb9d180, 0x33cdc6a2, 0x0256755f, 0x9d5b9a50, 0x44a9cc31, 0x5abe84a7⟩ := by
  decide +kernel

/-! ## One step of each command -/

/-- Reset shows the default state, no response (10_state.md R39; 70_reset_and_hazards.md R200). -/
theorem test_reset :
    State.reset.hOut = 0x6a09e667bb67ae853c6ef372a54ff53a510e527f9b05688c1f83d9ab5be0cd19#256 ∧
    State.reset.status = 0b000#3 ∧ State.reset.rspCode = none := by decide

/-- 43_construct.md R140; 95_test_vectors.md section 8: INIT recovers from a rejection, low bits ignored. -/
theorem test_init :
    seen (step (afterFinalize.rejectCommand.withFetchWord 16 0x0ff)) = seen (exec .init State.reset) ∧
    seen (exec .init State.reset) =
      some (0x6a09e667bb67ae853c6ef372a54ff53a510e527f9b05688c1f83d9ab5be0cd19#256, 0b000#3, some 0b00#2) := by decide

/-- Program P3, step 1. -/
theorem test_initIv :
    seen (step (afterFinalize.offer ⟨0x100, 0xc1059ed8367cd5073070dd17f70e5939ffc00b316858151164f98fa7befa4fa4#256⟩)) =
      some (0xc1059ed8367cd5073070dd17f70e5939ffc00b316858151164f98fa7befa4fa4#256, 0b000#3, some 0b00#2) := by decide

/-- Program P1, step 4: the third byte of "abc". -/
theorem test_append_inside :
    exec (.append 0x63) (withBytes [0x61, 0x62] initialHash 0) =
      .next { withBytes [0x61, 0x62, 0x63] initialHash 0 with rsp := some .ok } := by rfl

/-- Program P6, step 1: the 64th byte at the top of the counter. -/
theorem test_append_overflow :
    seen (exec (.append 0x61) (withBytes (List.replicate 63 0x61) initialHash 0xfffffffffffffe00)) =
      some (0xdf5bb81ce81e0626fb45a8944fd40f31b25e6816d6d499c1ab90492900635e66#256, 0b100#3, some 0b10#2) ∧
    counters (exec (.append 0x61) (withBytes (List.replicate 63 0x61) initialHash 0xfffffffffffffe00)) =
      some (0, 0) := by decide +kernel

/-- Program P1, step 5: the digest of "abc". -/
theorem test_finalize_abc :
    seen (step ((withBytes [0x61, 0x62, 0x63] initialHash 0).withFetchWord 16 0x300)) =
      some (0xba7816bf8f01cfea414140de5dae2223b00361a396177a9cb410ff61f20015ad#256, 0b001#3, some 0b00#2) ∧
    counters (exec .finalize (withBytes [0x61, 0x62, 0x63] initialHash 0)) = some (0, 512) := by decide +kernel

/-- Program P6, companion (b): 63 buffered bytes, two compressions, the padding's wrap not flagged. -/
theorem test_finalize_two_blocks :
    seen (exec .finalize (withBytes (List.replicate 63 0x61) initialHash 0xfffffffffffffe00)) =
      some (0x2e9f81f2889986258eab0262d3dc8c2cf92d536515ab5785da8cd896e0b53be2#256, 0b001#3, some 0b00#2) ∧
    counters (exec .finalize (withBytes (List.replicate 63 0x61) initialHash 0xfffffffffffffe00)) =
      some (0, 512) := by decide +kernel

/-- Program P2, steps 4 and 5: rejected, the digest kept. -/
theorem test_rejected :
    seen (exec (.append 0x61) afterFinalize) = some (afterFinalize.hOut, 0b011#3, some 0b01#2) ∧
    seen (step (afterFinalize.withFetchWord 16 0x3ff)) = some (afterFinalize.hOut, 0b011#3, some 0b01#2) := by decide

/-- The hash as the rules define it, on "abc" (S2). -/
theorem test_hashFrom_abc :
    packWords (hashFrom initialHash [0x61, 0x62, 0x63]) =
      0xba7816bf8f01cfea414140de5dae2223b00361a396177a9cb410ff61f20015ad#256 := by decide +kernel

/-! ## Witnesses: states and operands that meet the hypotheses of each statement, at the edges of its clauses -/

/-- A sample with `rst` = 1 beside a valid command, one with neither, and one with a command. -/
def sampleReset : PortSample := ⟨true, true, 0x261, 0⟩
def sampleIdle : PortSample := ⟨false, false, 0x261, 0⟩
def sampleAppend : PortSample := ⟨false, true, 0x261, 0⟩

theorem witness_HardwareResetFromEveryState :
    { afterFinalize with inputs := [sampleReset, sampleAppend] }.inputs = sampleReset :: [sampleAppend] ∧
    sampleReset.rst = true := by decide

theorem witness_StepRunsTheAcceptedCommand :
    ({ afterFinalize with inputs := [sampleAppend] }.inputs = sampleAppend :: [] ∧ sampleAppend.rst = false ∧
      sampleAppend.cmdValid = true) ∧
    ({ afterFinalize with inputs := [sampleIdle] }.inputs = sampleIdle :: [] ∧ sampleIdle.rst = false ∧
      sampleIdle.cmdValid = false) ∧
    afterFinalize.inputs = [] := by decide

theorem witness_DecodeOfEncodeIsTheCommand : (Instr.initIv initialHash).wf = true ∧ (Instr.append 0xff).wf = true := by
  decide

theorem witness_EncodeOfDecodeIsTheCanonicalTransfer :
    Transfer.canonical ⟨0x000, 0⟩ = true ∧ Transfer.canonical ⟨0x100, packWords initialHash⟩ = true ∧
    Transfer.canonical ⟨0x2ff, 0⟩ = true ∧ Transfer.canonical ⟨0x300, 0⟩ = true := by decide

theorem witness_EveryWordDecodesByItsOpcode :
    (0x0ff#10).extractLsb' 8 2 = 0b00#2 ∧ (0x100#10).extractLsb' 8 2 = 0b01#2 ∧ (0x1ff#10).extractLsb' 8 2 = 0b01#2 ∧
    (0x200#10).extractLsb' 8 2 = 0b10#2 ∧ (0x2ff#10).extractLsb' 8 2 = 0b10#2 ∧ (0x300#10).extractLsb' 8 2 = 0b11#2 := by
  decide

/-- The least and the greatest amount, the lowest and the highest bit (R92's `rotr(1, 1)` and `rotr(0x80000000, 31)`). -/
theorem witness_RotrMovesEveryBitRound :
    (1 ≤ 1 ∧ 1 ≤ 31 ∧ 0 < 32 ∧ rotr 1 1 = 0x80000000) ∧ (1 ≤ 31 ∧ 31 ≤ 31 ∧ 31 < 32 ∧ rotr 0x80000000 31 = 1) := by
  decide

theorem witness_ShrDividesByAPowerOfTwo : 32 ≤ 29 + 3 ∧ shr 0xffffffff 3 = 0x1fffffff := by decide

/-- The edges of the shift inside `ssig0` and `ssig1`, bits 28, 29 and 21, 22 (R94, R95 on 0xffffffff). -/
theorem witness_SigmaFunctionsBitByBit :
    28 < 32 ∧ (ssig0 0xffffffff).getLsbD 28 = true ∧ (ssig0 0xffffffff).getLsbD 29 = false ∧
    21 < 32 ∧ (ssig1 0xffffffff).getLsbD 21 = true ∧ (ssig1 0xffffffff).getLsbD 22 = false := by decide

theorem witness_ChSelectsAndMajIsTheMajority :
    31 < 32 ∧ ch 0xffffffff 0x12345678 0x9abcdef0 = 0x12345678 ∧ ch 0 0x12345678 0x9abcdef0 = 0x9abcdef0 ∧
    maj 0xffffffff 0 0x12345678 = 0x12345678 := by decide

/-- The last index, and the printed first and last constant (10_state.md R24). -/
theorem witness_ConstantTablesAreRootsOfThePrimes :
    63 < 64 ∧ kWord 0 = 0x428a2f98 ∧ kWord 63 = 0xc67178f2 := by decide

theorem witness_ScheduleIsLoadedAndExtended :
    15 < 16 ∧ wWord (schedule abcBlock) 15 = 0x18 ∧ 16 ≤ 16 ∧ 16 < 64 ∧ wWord (schedule abcBlock) 16 = 0x61626380 ∧
    63 < 64 := by decide +kernel

/-- The rounds themselves are such a sequence. -/
theorem witness_CompressAddsTheLastRoundBack :
    64 ≤ 64 ∧ ∃ v : Nat → WorkVars, v 0 = wvInit initialHash ∧
      ∀ i, i < 64 → v (i + 1) = round (v i) (kWord i) (wWord (schedule abcBlock) i) :=
  ⟨Nat.le_refl 64, fun n => rounds (schedule abcBlock) n (wvInit initialHash), rfl, fun _ _ => rounds_succ ..⟩

theorem witness_BitLenCarriesExactlyAtTheTop :
    (0xfffffffffffffe00#64).toNat % 512 = 0 ∧ carry512 0xfffffffffffffe00 = true ∧
    (0xfffffffffffffc00#64).toNat % 512 = 0 ∧ carry512 0xfffffffffffffc00 = false := by decide

theorem witness_TotalIsExactAndIsAConcatenation :
    (withBytes [0x61, 0x61, 0x61] initialHash 0xfffffffffffffe00).bitLen.toNat % 512 = 0 ∧
    (withBytes [0x61, 0x61, 0x61] initialHash 0xfffffffffffffe00).totalBits = 0xfffffffffffffe18 := by decide

/-- R161's table at 54, 55, 56, 63. -/
theorem witness_PaddingEndsOnABlockBoundary :
    zeroCount 54 = 1 ∧ 0 < zeroCount 54 ∧ zeroCount 55 = 0 ∧ zeroCount 56 = 63 ∧ 62 < zeroCount 56 ∧
    zeroCount 63 = 56 ∧ 7 < 8 := by decide

theorem witness_DigestBytesStandOnHOut :
    3 < 4 ∧ (serialize ⟨0xe3b0c442, 0, 0, 0, 0, 0, 0, 0x7852b855⟩)[3]? = some 0x42 ∧
    (serialize ⟨0xe3b0c442, 0, 0, 0, 0, 0, 0, 0x7852b855⟩)[31]? = some 0x55 := by decide

theorem witness_BufferWriteIsReadBackThereAndOnlyThere :
    63 < 64 ∧ Memory.wf [(0, 0x61), (63, 0x62)] = true ∧
    Memory.read? (Memory.write [(0, 0x61), (63, 0x62)] 63 0x63) 63 = some 0x63 := by decide

theorem witness_CanonicalBuffersAreDeterminedByTheirBytes :
    ∃ m₁ m₂ : Memory, Memory.wf m₁ = true ∧ Memory.wf m₂ = true ∧ (∀ p, Memory.read? m₁ p = Memory.read? m₂ p) :=
  ⟨[(63, 0x62)], Memory.write [] 63 0x62, by decide, by decide, fun _ => rfl⟩

theorem witness_InitConstructsTheDefaultState : (0x0aa#10).extractLsb' 8 2 = 0b00#2 := by decide

theorem witness_InitIvConstructsTheGivenState : (0x1ff#10).extractLsb' 8 2 = 0b01#2 := by decide

/-- The first and the last byte inside a block, and the 64th with and without a carry. -/
theorem witness_PushStoresAndCompressesTheFullBlock :
    State.reset.bufLen ≠ 63#6 ∧ (withBytes (List.replicate 62 0x61) initialHash 0).bufLen ≠ 63#6 ∧
    (withBytes (List.replicate 63 0x61) initialHash 0).bufLen = 63#6 ∧
    (push 0x61 (withBytes (List.replicate 63 0x61) initialHash 0xfffffffffffffc00)).2 = false ∧
    (push 0x61 (withBytes (List.replicate 63 0x61) initialHash 0xfffffffffffffe00)).2 = true := by decide

/-- FINALIZED; ACCEPTING with 0, 62 and 63 bytes buffered; a word with op 10. -/
theorem witness_AppendFollowsItsRule :
    afterFinalize.phase = .finalized ∧
    (State.reset.phase = .accepting ∧ State.reset.bufLen ≠ 63#6) ∧
    ((withBytes (List.replicate 62 0x61) initialHash 0).phase = .accepting ∧
      (withBytes (List.replicate 62 0x61) initialHash 0).bufLen ≠ 63#6) ∧
    ((withBytes (List.replicate 63 0x61) initialHash 0).phase = .accepting ∧
      (withBytes (List.replicate 63 0x61) initialHash 0).bufLen = 63#6) ∧
    (0x2ff#10).extractLsb' 8 2 = 0b10#2 := by decide

/-- An index that is not `BUFLEN`, and the index that is, at the end of the block. -/
theorem witness_AppendStoresOneByteOnly :
    (withBytes (List.replicate 63 0x61) initialHash 0).phase = .accepting ∧
    62 ≠ (withBytes (List.replicate 63 0x61) initialHash 0).bufLen.toNat ∧
    63 = (withBytes (List.replicate 63 0x61) initialHash 0).bufLen.toNat := by decide

/-- The last block that does not wrap the counter. -/
theorem witness_AppendCountsEightBits :
    (withBytes (List.replicate 63 0x61) initialHash 0xfffffffffffffc00).phase = .accepting ∧
    ¬ ((withBytes (List.replicate 63 0x61) initialHash 0xfffffffffffffc00).bufLen = 63#6 ∧
      2 ^ 64 ≤ (withBytes (List.replicate 63 0x61) initialHash 0xfffffffffffffc00).bitLen.toNat + 512) := by decide

/-- FINALIZED; ACCEPTING with 0, 55, 56 and 63 bytes buffered; an index past `BUF`; a word with op 11. -/
theorem witness_FinalizeFollowsItsRule :
    afterFinalize.phase = .finalized ∧
    (State.reset.phase = .accepting ∧ State.reset.bufLen.toNat < 56) ∧
    ((withBytes (List.replicate 55 0x61) initialHash 0).phase = .accepting ∧
      (withBytes (List.replicate 55 0x61) initialHash 0).bufLen.toNat < 56) ∧
    ((withBytes (List.replicate 56 0x61) initialHash 0).phase = .accepting ∧
      56 ≤ (withBytes (List.replicate 56 0x61) initialHash 0).bufLen.toNat) ∧
    ((withBytes (List.replicate 63 0x61) initialHash 0).phase = .accepting ∧
      56 ≤ (withBytes (List.replicate 63 0x61) initialHash 0).bufLen.toNat) ∧
    64 ≤ 64 ∧ (0x3aa#10).extractLsb' 8 2 = 0b11#2 := by decide

theorem witness_CommandAfterFinalizeIsRejected : afterFinalize.phase = .finalized := by decide

theorem witness_RepeatedViolationsChangeNothingMore :
    afterFinalize.phase = .finalized ∧ [Instr.append 0x61, Instr.finalize] ≠ [] ∧
    ∀ i ∈ [Instr.append 0x61, Instr.finalize], i = .finalize ∨ ∃ b, i = .append b := by
  refine ⟨rfl, by decide, ?_⟩
  intro i hi
  simp only [List.mem_cons, List.not_mem_nil, or_false] at hi
  rcases hi with rfl | rfl
  · exact .inr ⟨0x61, rfl⟩
  · exact .inl rfl

/-- A state whose next sample asks for a reset, in phase FINALIZED with `ERR_PROTOCOL` set and `LEN_OVF` set. -/
def beforeReset : State := { afterFinalize.rejectCommand with lenOvf := true, inputs := [sampleReset] }

theorem witness_PhaseAfterEveryCommand : beforeReset.nextRequest = .reset ∧ beforeReset.phase = .finalized := by decide

theorem witness_ErrProtocolAfterEveryCommand : beforeReset.nextRequest = .reset ∧ beforeReset.errProtocol = true := by
  decide

/-- At the top of the counter with a block to complete, where `LEN_OVF` is set, and one block below, where it is not; a state about to be
reset. -/
theorem witness_LenOvfAfterEveryCommand :
    (withBytes (List.replicate 63 0x61) initialHash 0xfffffffffffffe00).bitLen.toNat % 512 = 0 ∧
    (withBytes (List.replicate 63 0x61) initialHash 0xfffffffffffffc00).bitLen.toNat % 512 = 0 ∧
    beforeReset.nextRequest = .reset ∧ beforeReset.lenOvf = true ∧
    (Instr.initIv initialHash = .init ∨ ∃ iv, Instr.initIv initialHash = .initIv iv) := by
  refine ⟨by decide, by decide, by decide, by decide, .inr ⟨_, rfl⟩⟩

/-- A block about to be completed; a block with 55 and one with 56 bytes at FINALIZE; a reset and an idle request. -/
theorem witness_OnlyConstructionAndCompressionWriteH :
    beforeReset.nextRequest = .reset ∧ beforeReset.dropInput.nextRequest = .idle ∧
    ((withBytes (List.replicate 63 0x61) initialHash 0).phase = .accepting ∧
      (withBytes (List.replicate 63 0x61) initialHash 0).bufLen = 63#6) ∧
    (withBytes (List.replicate 55 0x61) initialHash 0).bufLen.toNat < 56 ∧
    ¬ (withBytes (List.replicate 56 0x61) initialHash 0).bufLen.toNat < 56 := by decide

theorem witness_EveryStepKeepsTheInvariant : ∃ s t : State, s.Inv ∧ step s = .next t :=
  ⟨State.reset.offer ⟨0x261, 0⟩, State.reset.acceptByte 0x61,
    ⟨rfl, rfl, fun p h => absurd h (Nat.not_lt_zero p), fun _ => rfl, nofun, ⟨rfl, rfl⟩⟩, rfl⟩

/-- Two states alike but for a stale byte at index 1, with one byte buffered. -/
theorem witness_StaleBytesNeverInfluenceAResult :
    ∃ s₁ s₂ : State, s₂ = { s₁ with buf := s₂.buf, bufEpoch := s₂.bufEpoch } ∧ s₁ ≠ s₂ ∧ s₁.bufLen.toNat = 1 ∧
      ∀ p, p < s₁.bufLen.toNat → s₁.bufByte p = s₂.bufByte p := by
  refine ⟨withBytes [0x61] initialHash 0,
    { withBytes [0x61] initialHash 0 with buf := [(0, 0x61), (1, 0x99)], bufEpoch := 5 }, rfl, by decide, rfl, ?_⟩
  intro p hp
  obtain rfl : p = 0 := Nat.lt_one_iff.1 hp
  rfl

/-- Different bytes and different accumulators, the same control state, one byte before the end of a block. -/
theorem witness_ControlDependsOnNoData :
    opcodeRow (.append 0x00) = opcodeRow (.append 0xff) ∧
    (withBytes (List.replicate 63 0x61) initialHash 0).bufLen = (withBytes (List.replicate 63 0x00) ⟨0, 0, 0, 0, 0, 0, 0, 0⟩ 0).bufLen ∧
    (withBytes (List.replicate 63 0x61) initialHash 0) ≠ (withBytes (List.replicate 63 0x00) ⟨0, 0, 0, 0, 0, 0, 0, 0⟩ 0) := by
  decide

/-- 62 bytes buffered and chunks of one and two bytes, across the end of the block, at the top of the counter; a
FINALIZED state. -/
theorem witness_AppendingInChunksIsAppendingAtOnce :
    (withBytes (List.replicate 62 0x61) initialHash 0xfffffffffffffe00).phase = .accepting ∧
    0 < ((withBytes (List.replicate 62 0x61) initialHash 0xfffffffffffffe00).buffered ++ [0x62] ++ [0x63, 0x64]).length % 64 ∧
    2 ^ 64 ≤ (withBytes (List.replicate 62 0x61) initialHash 0xfffffffffffffe00).bitLen.toNat + 512 ∧
    afterFinalize.phase = .finalized := by decide

/-- From reset, a message one byte over a block: one byte left in the buffer. -/
theorem witness_StateAfterAppendingAMessage :
    State.reset.phase = .accepting ∧ State.reset.bitLen = 0#64 ∧ State.reset.bufLen = 0#6 ∧
    State.reset.lenOvf = false ∧ 0 < (List.replicate 65 0x61#8).length % 64 ∧ (List.replicate 65 0x61#8).length < 2 ^ 61 := by
  decide

/-- Two groupings of "abc", one with an empty call. -/
theorem witness_DigestIsAFunctionOfStateAndBytes :
    [[0x61#8], [], [0x62#8, 0x63#8]].flatten = [[0x61#8, 0x62#8, 0x63#8]].flatten := by decide

theorem witness_MachineComputesTheHashOfEveryMessage : ([] : List Byte).length < 2 ^ 61 ∧ [0x61#8].length < 2 ^ 61 := by
  decide

end Sys2Proof.Tests
end

/-! PROOFS. The phase and the two sticky flags over every command, and the values right after reset (10_state.md R27,
R28, R29, R39). -/

namespace Sys2Proof.Machine

/-! ## The status word and the response of an executed command -/

@[simp] theorem status_bit_zero (s : State) : s.status[0] = phaseBit s.phase := by
  simp only [State.status, ← BitVec.getLsbD_eq_getElem, BitVec.getLsbD_append]
  simp

@[simp] theorem status_bit_one (s : State) : s.status[1] = s.errProtocol := by
  simp only [State.status, ← BitVec.getLsbD_eq_getElem, BitVec.getLsbD_append]
  simp

@[simp] theorem status_bit_two (s : State) : s.status[2] = s.lenOvf := by
  simp only [State.status, ← BitVec.getLsbD_eq_getElem, BitVec.getLsbD_append]
  simp

@[simp] theorem phaseBit_eq_true_iff (p : Phase) : phaseBit p = true ↔ p = .finalized := by
  cases p <;> simp [phaseBit]

/-- A command that was executed does not answer ProtocolViolation. -/
@[simp] theorem executedResponse_ne_protocolViolation (o : Bool) : executedResponse o ≠ .protocolViolation := by
  cases o <;> simp [executedResponse]

/-- A command answers ProtocolViolation exactly when it is APPEND or FINALIZE in phase FINALIZED (10_state.md R27). -/
theorem exec_rejected_iff {i : Instr} {s t : State} (ht : exec i s = .next t) :
    t.rsp = some .protocolViolation ↔ s.phase = .finalized ∧ (i = .finalize ∨ ∃ b, i = .append b) := by
  rcases exec_cases i s with ⟨hi, h⟩ | ⟨iv, hi, h⟩ | ⟨b, hi, hp, h⟩ | ⟨hi, hp, h⟩ | ⟨hi, hp, h⟩
  all_goals rw [h] at ht; cases ht
  · simp [hi]
  · simp [hi]
  · simp [hp]
  · simp [hp]
  · simp [hp, hi]

/-! ## The sticky flags steer nothing -/

@[simp] theorem block_withFlags (s : State) (e o : Bool) :
    State.block { s with errProtocol := e, lenOvf := o } = s.block := rfl

theorem push_withFlags (x : Byte) (s : State) (e o : Bool) :
    push x { s with errProtocol := e, lenOvf := o } =
      ({ (push x s).1 with errProtocol := e, lenOvf := o }, (push x s).2) := by
  apply Prod.ext
  · apply State.ext <;> simp
  · simp

theorem pushAll_withFlags (xs : List Byte) (s : State) (e o : Bool) :
    pushAll xs { s with errProtocol := e, lenOvf := o } = { pushAll xs s with errProtocol := e, lenOvf := o } := by
  induction xs generalizing s with
  | nil => rfl
  | cons x xs ih => rw [pushAll_cons, pushAll_cons, push_withFlags, ih]

theorem acceptByte_withFlags (s : State) (b : Byte) (e o : Bool) :
    State.acceptByte { s with errProtocol := e, lenOvf := o } b =
      { s.acceptByte b with
        errProtocol := e, lenOvf := o || (push b s).2, rsp := some (executedResponse (o || (push b s).2)) } := by
  rw [State.acceptByte, push_withFlags]
  rfl

theorem finalizeMessage_withFlags (s : State) (e o : Bool) :
    State.finalizeMessage { s with errProtocol := e, lenOvf := o } =
      { s.finalizeMessage with errProtocol := e, lenOvf := o, rsp := some (executedResponse o) } := by
  have hz : State.totalBits { s with errProtocol := e, lenOvf := o } = s.totalBits := rfl
  rw [State.finalizeMessage, hz, pushAll_withFlags]
  rfl

/-- With the sticky flags of the state before replaced, a command does the same but for the flags and the response;
neither flag depends on the other, and the response depends on `LEN_OVF` alone (10_state.md R28, R29). -/
theorem exec_withFlags {i : Instr} {s t : State} (ht : exec i s = .next t) (e o : Bool) :
    ∃ e' o' r, exec i { s with errProtocol := e, lenOvf := o } =
        .next { t with errProtocol := e', lenOvf := o', rsp := r } ∧
      (e = s.errProtocol → e' = t.errProtocol) ∧ (o = s.lenOvf → o' = t.lenOvf ∧ r = t.rsp) := by
  rcases exec_cases i s with ⟨rfl, h⟩ | ⟨iv, rfl, h⟩ | ⟨b, rfl, hp, h⟩ | ⟨rfl, hp, h⟩ | ⟨hi, hp, h⟩
  all_goals rw [h] at ht; cases ht
  · exact ⟨_, _, _, rfl, fun _ => rfl, fun _ => ⟨rfl, rfl⟩⟩
  · exact ⟨_, _, _, rfl, fun _ => rfl, fun _ => ⟨rfl, rfl⟩⟩
  · refine ⟨e, o || (push b s).2, some (executedResponse (o || (push b s).2)), ?_, ?_, ?_⟩
    · rw [exec_append_accepting b (by exact hp), acceptByte_withFlags]
    · rintro rfl; simp
    · rintro rfl; simp
  · refine ⟨e, o, some (executedResponse o), ?_, ?_, ?_⟩
    · rw [exec_finalize_accepting (by exact hp), finalizeMessage_withFlags]
    · rintro rfl; simp
    · rintro rfl; simp
  · refine ⟨true, o, some .protocolViolation, ?_, fun _ => rfl, fun ho => ⟨ho, rfl⟩⟩
    rcases hi with rfl | ⟨b, rfl⟩
    · rw [exec_finalize_finalized (by exact hp)]; rfl
    · rw [exec_append_finalized b (by exact hp)]; rfl

theorem exec_withErrProtocol {i : Instr} {s t : State} (ht : exec i s = .next t) (e : Bool) :
    ∃ u, exec i { s with errProtocol := e } = .next u ∧ u = { t with errProtocol := u.errProtocol } := by
  obtain ⟨e', o', r, hu, -, hkeep⟩ := exec_withFlags ht e s.lenOvf
  obtain ⟨rfl, rfl⟩ := hkeep rfl
  exact ⟨_, hu, rfl⟩

theorem exec_withLenOvf {i : Instr} {s t : State} (ht : exec i s = .next t) (o : Bool) :
    ∃ u, exec i { s with lenOvf := o } = .next u ∧ u = { t with lenOvf := u.lenOvf, rsp := u.rsp } := by
  obtain ⟨e', o', r, hu, hkeep, -⟩ := exec_withFlags ht s.errProtocol o
  obtain rfl := hkeep rfl
  exact ⟨_, hu, rfl⟩

/-! ## `LEN_OVF` -/

/-- Between blocks the counter carries at its last multiple of 512 only (10_state.md R35; 40_word_functions.md R103). -/
theorem carry512_of_wholeBlocks {l : BitVec 64} (h : l.toNat % 512 = 0) :
    carry512 l = decide (l = 0xfffffffffffffe00#64) := by
  have hlt := l.isLt
  rw [carry512, decide_eq_decide, ← BitVec.toNat_inj]
  simp only [BitVec.reduceToNat]
  omega

/-- A message absorbed from an empty buffer and a zero counter sets `LEN_OVF` when it has 2^64 bits or more. -/
theorem acceptAll_construct_lenOvf (s : State) (h : HashState) (m : List Byte) :
    (acceptAll m (s.construct h)).lenOvf = true ↔ 2 ^ 64 ≤ 8 * m.length := by
  rw [acceptAll_lenOvf]
  simp
  omega

/-- A construct and the APPENDs of a message run to the bytes absorbed from the constructed state. -/
theorem runCommands_construct_appends {i : Instr} {s : State} {h : HashState} (hi : exec i s = .next (s.construct h))
    (m : List Byte) : runCommands (i :: appends m) s = .next (acceptAll m (s.construct h)) := by
  rw [runCommands, hi]
  exact runCommands_appends m (construct_phase s h)

end Sys2Proof.Machine

section
open Sys2Proof Sys2Proof.Machine

/-- Settles O36: the five things a command can do, each with its phase. -/
theorem phaseAfterEveryCommand : Obligations.PhaseAfterEveryCommand := by
  refine ⟨fun i s => ?_, fun s h => ⟨_, step_reset h, rfl⟩⟩
  rcases exec_cases i s with ⟨rfl, h⟩ | ⟨iv, rfl, h⟩ | ⟨b, rfl, hp, h⟩ | ⟨rfl, hp, h⟩ | ⟨rfl | ⟨b, rfl⟩, hp, h⟩
  all_goals refine ⟨_, h, ?_, exec_rejected_iff h, by simp⟩
  · rfl
  · rfl
  · exact acceptByte_phase s b
  · rfl
  · exact hp
  · rfl

/-- Settles O37: only a rejection sets the flag, and no command reads it. -/
theorem errProtocolAfterEveryCommand : Obligations.ErrProtocolAfterEveryCommand := by
  refine ⟨fun i s => ?_, fun s h => ⟨_, step_reset h, rfl⟩⟩
  rcases exec_cases i s with ⟨rfl, h⟩ | ⟨iv, rfl, h⟩ | ⟨b, rfl, hp, h⟩ | ⟨rfl, hp, h⟩ | ⟨rfl | ⟨b, rfl⟩, hp, h⟩
  all_goals refine ⟨_, h, ?_, by simp, exec_withErrProtocol h⟩
  · rfl
  · rfl
  · simp [hp]
  · simp [hp]
  · simp [hp]
  · simp [hp]

/-- Settles O38: the accepted APPEND's carry at a multiple of 512, no command that reads the flag but for its response,
and the bits counted since the construct. -/
theorem lenOvfAfterEveryCommand : Obligations.LenOvfAfterEveryCommand := by
  refine ⟨fun i s hblocks => ?_, fun s h => ⟨_, step_reset h, rfl⟩, fun s i m hi => ?_⟩
  · rcases exec_cases i s with ⟨rfl, h⟩ | ⟨iv, rfl, h⟩ | ⟨b, rfl, hp, h⟩ | ⟨rfl, hp, h⟩ | ⟨rfl | ⟨b, rfl⟩, hp, h⟩
    all_goals refine ⟨_, h, ?_, by simp, exec_withLenOvf h⟩
    · rfl
    · rfl
    · simp [hp, carry512_of_wholeBlocks hblocks]
    · exact finalizeMessage_lenOvf s
    · rfl
    · simp [hp]
  · rcases hi with rfl | ⟨iv, rfl⟩
    · exact ⟨_, runCommands_construct_appends (exec_init s) m, acceptAll_construct_lenOvf s _ m⟩
    · exact ⟨_, runCommands_construct_appends (exec_initIv iv s) m, acceptAll_construct_lenOvf s _ m⟩

/-- Settles O1: the reset state read off its definition; INIT on it is a construct on registers that hold those values
already. -/
theorem resetHoldsTheValuesOfTheTable : Obligations.ResetHoldsTheValuesOfTheTable :=
  ⟨rfl, rfl, rfl, rfl, rfl, rfl, rfl, rfl, rfl, rfl, read?_nil, exec_init State.reset⟩

end

/-! PROOFS. Big-endian order in memory and on the port: the four bytes MemRead joins (20_memory.md R52), and the bytes
and words of the digest in SERIALIZE and on `h_out` (20_memory.md R54, R55; 45_finalize.md R164). -/

namespace Sys2Proof.Machine

/-- Bytes joined most significant first are the digits of the word in base 2^8. -/
theorem toNat_append_byte {n : Nat} (x : BitVec n) (b : Byte) : (x ++ b).toNat = x.toNat * 2 ^ 8 + b.toNat := by
  rw [BitVec.toNat_append, ← Nat.shiftLeft_add_eq_or_of_lt b.isLt, Nat.shiftLeft_eq]

theorem memRead4_toNat (blk : Block) (a : BitVec 6) :
    (memRead4 blk a).toNat = (blk a).toNat * 2 ^ 24 + (blk (a + 1#6)).toNat * 2 ^ 16 +
      (blk (a + 2#6)).toNat * 2 ^ 8 + (blk (a + 3#6)).toNat := by
  simp only [memRead4, toNat_append_byte]
  omega

/-- `be32` lists the word's bytes from the top (00_scope.md R10). -/
theorem be32_getElem? (w : Word) {m : Nat} (h : m < 4) : (be32 w)[m]? = some (w.extractLsb' (24 - 8 * m) 8) := by
  interval_cases m <;> rfl

/-- The `k`th group of four digest bytes is `be32(H[k])` (45_finalize.md R164). -/
theorem serialize_word (h : HashState) (k : Fin 8) : ((serialize h).drop (4 * k)).take 4 = be32 (hashWord h k) := by
  fin_cases k <;> rfl

theorem serialize_getElem? (h : HashState) (k : Fin 8) {m : Nat} (hm : m < 4) :
    (serialize h)[4 * k.val + m]? = some ((hashWord h k).extractLsb' (24 - 8 * m) 8) := by
  rw [← be32_getElem? _ hm, ← serialize_word, List.getElem?_take_of_lt hm, List.getElem?_drop]

theorem hashWord_portWords (p : BitVec 256) (k : Fin 8) : hashWord (portWords p) k = portWord p k := by
  fin_cases k <;> rfl

/-- `H[k]` stands at `h_out[255-32k : 224-32k]` (20_memory.md R55). -/
theorem hOut_word (s : State) (k : Fin 8) : s.hOut.extractLsb' (224 - 32 * k.val) 32 = hashWord s.h k := by
  calc s.hOut.extractLsb' (224 - 32 * k.val) 32
    _ = hashWord (portWords (packWords s.h)) k := (hashWord_portWords _ k).symm
    _ = hashWord s.h k := by rw [portWords_packWords]

/-- A field of a field is a field of the whole. -/
theorem extractLsb'_extractLsb'_of_add_le {n start len start' len' : Nat} (x : BitVec n) (h : start + len ≤ len') :
    (x.extractLsb' start' len').extractLsb' start len = x.extractLsb' (start' + start) len := by
  ext i hi
  have hin : start + i < len' := by omega
  simp [hin, Nat.add_assoc]

/-- Byte `m` from the top of `H[k]` is byte `4k + m` from the top of `h_out`. -/
theorem hOut_byte (s : State) (k : Fin 8) {m : Nat} (hm : m < 4) :
    s.hOut.extractLsb' (248 - 8 * (4 * k.val + m)) 8 = (hashWord s.h k).extractLsb' (24 - 8 * m) 8 := by
  have hplace : 248 - 8 * (4 * k.val + m) = (224 - 32 * k.val) + (24 - 8 * m) := by omega
  rw [← hOut_word, extractLsb'_extractLsb'_of_add_le _ (by omega), hplace]

end Sys2Proof.Machine

section
open Sys2Proof Sys2Proof.Machine

/-- Settles O17: MemRead's four bytes as digits in base 2^8, and the recurrence read from the finished schedule. -/
theorem scheduleIsLoadedAndExtended : Obligations.ScheduleIsLoadedAndExtended := by
  intro blk
  refine ⟨schedule_length blk, fun j hj => ?_, fun i h₁ h₂ => schedule_extended blk h₁ h₂⟩
  simp only [schedule_loaded blk hj, memRead4_toNat, BitVec.ofNat_add]

/-- Settles O23: each byte of `be32(H[k])` in its group of four, and the words on the port taken apart again. -/
theorem digestBytesStandOnHOut : Obligations.DigestBytesStandOnHOut := by
  intro s
  exact ⟨rfl, fun k m hm => ⟨serialize_getElem? s.h k hm, hOut_byte s k hm, hOut_word s k⟩⟩

end

/-! PROOFS. The port's encodings: what each operation code decodes to and what the opcode table's mask leaves of a
command word (30_encoding.md R72 to R74), and the response of every command (30_encoding.md R75). -/

namespace Sys2Proof

/-! ## The decoder by operation code -/

theorem decode_of_op00 {t : Transfer} (h : opField t.cmd = 0b00#2) : decode t = .init := by
  simp [decode, h]

theorem decode_of_op01 {t : Transfer} (h : opField t.cmd = 0b01#2) : decode t = .initIv (portWords t.ivIn) := by
  simp [decode, h]

theorem decode_of_op10 {t : Transfer} (h : opField t.cmd = 0b10#2) : decode t = .append (byteField t.cmd) := by
  simp [decode, h]

theorem decode_of_op11 {t : Transfer} (h : opField t.cmd = 0b11#2) : decode t = .finalize := by
  simp [decode, h]

/-- Everything a transfer can decode to, with its operation code: the field is full (30_encoding.md R74). -/
theorem decode_cases (t : Transfer) :
    (opField t.cmd = 0b00#2 ∧ decode t = .init) ∨
    (opField t.cmd = 0b01#2 ∧ decode t = .initIv (portWords t.ivIn)) ∨
    (opField t.cmd = 0b10#2 ∧ decode t = .append (byteField t.cmd)) ∨
    (opField t.cmd = 0b11#2 ∧ decode t = .finalize) := by
  rcases opcode_cases (opField t.cmd) with h | h | h | h
  · exact .inl ⟨h, decode_of_op00 h⟩
  · exact .inr (.inl ⟨h, decode_of_op01 h⟩)
  · exact .inr (.inr (.inl ⟨h, decode_of_op10 h⟩))
  · exact .inr (.inr (.inr ⟨h, decode_of_op11 h⟩))

/-- The mask of the opcode table keeps the operation code and clears the low byte (30_encoding.md R72). -/
theorem and_opcodeMask (c : BitVec 10) : c &&& 0x300#10 = opField c ++ 0#8 := by
  have hmask : 0x300#10 = BitVec.allOnes 2 ++ 0#8 := by decide
  calc c &&& 0x300#10
    _ = (opField c ++ byteField c) &&& (BitVec.allOnes 2 ++ 0#8) := by rw [opField_append_byteField, hmask]
    _ = opField c ++ 0#8 := by rw [BitVec.and_append, BitVec.and_allOnes, BitVec.and_zero]

end Sys2Proof

namespace Sys2Proof.Machine

/-! ## The response on the port -/

theorem responseCode_executedResponse (o : Bool) :
    responseCode (executedResponse o) = if o then 0b10#2 else 0b00#2 := by
  cases o <;> rfl

theorem rspValid_and_rspCode_of_rsp {s : State} {r : Response} (h : s.rsp = some r) :
    s.rspValid = true ∧ s.rspCode = some (responseCode r) := by
  simp [State.rspValid, State.rspCode, h]

/-- An executed command answers OK or LengthOverflow, as `LEN_OVF` stands after it (30_encoding.md R75). -/
theorem executed_response {s : State} (h : s.rsp = some (executedResponse s.lenOvf)) :
    s.rspValid = true ∧ s.rspCode = some (if s.lenOvf then 0b10#2 else 0b00#2) := by
  rw [← responseCode_executedResponse]
  exact rspValid_and_rspCode_of_rsp h

/-- A rejected command answers ProtocolViolation, whatever `LEN_OVF` is (60_exceptions.md R185). -/
theorem rejectCommand_response (s : State) :
    s.rejectCommand.rspValid = true ∧ s.rejectCommand.rspCode = some 0b01#2 :=
  rspValid_and_rspCode_of_rsp (rejectCommand_rsp s)

theorem construct_response (s : State) (h : HashState) :
    (s.construct h).rspValid = true ∧ (s.construct h).rspCode = some 0b00#2 :=
  rspValid_and_rspCode_of_rsp (construct_rsp s h)

end Sys2Proof.Machine

section
open Sys2Proof Sys2Proof.Machine

/-- Settles O10: under the mask a word is its operation code above a zero byte, and the code is what `decode` reads. -/
theorem matchAndMaskSelectTheCommand : Obligations.MatchAndMaskSelectTheCommand := by
  intro t
  rw [and_opcodeMask]
  rcases decode_cases t with ⟨hop, hdec⟩ | ⟨hop, hdec⟩ | ⟨hop, hdec⟩ | ⟨hop, hdec⟩
  all_goals simp [hop, hdec]

/-- Settles O39: the five things a command can do, each with the response it leaves. -/
theorem responseToEveryCommand : Obligations.ResponseToEveryCommand := by
  intro i s
  rcases exec_cases i s with ⟨rfl, h⟩ | ⟨iv, rfl, h⟩ | ⟨b, rfl, hp, h⟩ | ⟨rfl, hp, h⟩ | ⟨rfl | ⟨b, rfl⟩, hp, h⟩
  all_goals refine ⟨_, h, ?_⟩
  · exact construct_response s initialHash
  · exact construct_response s iv
  · simpa [hp] using executed_response (acceptByte_rsp s b)
  · simpa [hp] using executed_response (s := s.finalizeMessage) (by simp)
  · simpa [hp] using rejectCommand_response s
  · simpa [hp] using rejectCommand_response s

/-- Settles O9: the decoder's equation for each operation code, the operands as they stand on the wires. -/
theorem everyWordDecodesByItsOpcode : Obligations.EveryWordDecodesByItsOpcode := by
  intro c iv
  exact ⟨decode_of_op00 (t := ⟨c, iv⟩), decode_of_op01 (t := ⟨c, iv⟩), decode_of_op10 (t := ⟨c, iv⟩),
    decode_of_op11 (t := ⟨c, iv⟩)⟩

/-- Settles O24: the status word bit by bit, `PHASE` lowest. -/
theorem statusWordShowsTheThreeFlags : Obligations.StatusWordShowsTheThreeFlags := by
  intro s
  have hphase : s.status.getLsbD 0 = phaseBit s.phase := status_bit_zero s
  exact ⟨by rw [hphase, phaseBit_eq_true_iff], status_bit_one s, status_bit_two s⟩

end

/-! PROOFS. The word functions bit by bit (40_word_functions.md R92 to R99), and the arithmetic of the bit counter at a
multiple of 512 (40_word_functions.md R103, R104). -/

namespace Sys2Proof.Machine

/-! ## Rotations and shifts -/

/-- Inside the range of amounts R92 gives, the rotation is the library's. -/
theorem rotr_eq_rotateRight (x : Word) {n : Nat} (h : n < 32) : rotr x n = x.rotateRight n := by
  rw [rotr, BitVec.rotateRight_def, Nat.mod_eq_of_lt h]

/-- The bits below the cut are moved down by `n`, those above it come round from the bottom (R92). -/
theorem getLsbD_rotr (x : Word) {n m : Nat} (hn : n < 32) (hm : m < 32) :
    (rotr x n).getLsbD m = x.getLsbD ((m + n) % 32) := by
  rw [rotr_eq_rotateRight x hn, BitVec.getLsbD_rotateRight_of_lt hn]
  by_cases hcut : m < 32 - n
  · have hdown : (m + n) % 32 = n + m := by omega
    simp [hcut, hdown]
  · have hround : (m + n) % 32 = m - (32 - n) := by omega
    simp [hcut, hm, hround]

/-- Two rotations by 32 places together bring every bit home. -/
theorem rotr_rotr_cancel (x : Word) {n k : Nat} (hn : n < 32) (hk : k < 32) (hnk : n + k = 32) :
    rotr (rotr x n) k = x := by
  refine BitVec.eq_of_getLsbD_eq fun m hm => ?_
  have hhome : ((m + k) % 32 + n) % 32 = m := by omega
  rw [getLsbD_rotr _ hk hm, getLsbD_rotr _ hn (Nat.mod_lt _ (by decide)), hhome]

theorem toNat_shr (x : Word) (n : Nat) : (shr x n).toNat = x.toNat / 2 ^ n := by
  rw [shr, BitVec.toNat_ushiftRight, Nat.shiftRight_eq_div_pow]

/-- Bit `m` comes from bit `m + n`, or is zero where the word has no such bit (R93). -/
theorem getLsbD_shr (x : Word) (n m : Nat) : (shr x n).getLsbD m = (decide (m + n < 32) && x.getLsbD (m + n)) := by
  rw [shr, BitVec.getLsbD_ushiftRight, Nat.add_comm n m]
  by_cases h : m + n < 32
  · simp [h]
  · simp [h, BitVec.getLsbD_of_ge x (m + n) (by omega)]

/-! ## `ch` and `maj` -/

/-- One bit of `ch`: the two terms select, so their XOR is a choice (R98). -/
theorem getLsbD_ch (e f g : Word) {m : Nat} (hm : m < 32) :
    (ch e f g).getLsbD m = if e.getLsbD m then f.getLsbD m else g.getLsbD m := by
  simp only [ch, BitVec.getLsbD_xor, BitVec.getLsbD_and, BitVec.getLsbD_not, hm, decide_true, Bool.true_and]
  cases e.getLsbD m <;> simp

/-- The XOR of the three pairs of three bits is their majority (R99). -/
theorem xor_pairs_eq_majority (a b c : Bool) :
    ((a && b) ^^ (a && c) ^^ (b && c)) = decide (2 ≤ a.toNat + b.toNat + c.toNat) := by
  revert a b c
  decide

theorem getLsbD_maj (a b c : Word) (m : Nat) :
    (maj a b c).getLsbD m = decide (2 ≤ (a.getLsbD m).toNat + (b.getLsbD m).toNat + (c.getLsbD m).toNat) := by
  rw [← xor_pairs_eq_majority, maj]
  simp only [BitVec.getLsbD_xor, BitVec.getLsbD_and]

theorem maj_swap_left (a b c : Word) : maj a b c = maj b a c := by
  rw [maj, maj, BitVec.and_comm a b, BitVec.xor_assoc, BitVec.xor_comm (a &&& c), BitVec.xor_assoc]

theorem maj_swap_right (a b c : Word) : maj a b c = maj a c b := by
  rw [maj, maj, BitVec.and_comm b c, BitVec.xor_comm (a &&& b)]

/-! ## The bit counter -/

/-- Without a carry the 64-bit sum is the true sum (40_word_functions.md R103). -/
theorem toNat_add_512_of_carry512_eq_false {l : BitVec 64} (h : carry512 l = false) :
    (l + 512#64).toNat = l.toNat + 512 := by
  have hlt : l.toNat + 512 < 2 ^ 64 := Nat.lt_of_not_le (of_decide_eq_false h)
  exact BitVec.toNat_add_of_lt hlt

/-- `BUFLEN` counted in bits needs nine of the 64 places. -/
theorem toNat_bufLen_shiftLeft (l : BitVec 6) : (l.setWidth 64 <<< 3).toNat = 8 * l.toNat := by
  have hlt := l.isLt
  simp only [BitVec.toNat_shiftLeft, BitVec.toNat_setWidth, Nat.shiftLeft_eq]
  omega

/-- Above a multiple of 512 there is room for the 504 bits a partial block can hold (40_word_functions.md R104). -/
theorem totalBits_toNat {s : State} (h : s.bitLen.toNat % 512 = 0) :
    s.totalBits.toNat = s.bitLen.toNat + 8 * s.bufLen.toNat := by
  have hbuf := s.bufLen.isLt
  have hbit := s.bitLen.isLt
  rw [State.totalBits, BitVec.toNat_add_of_lt, toNat_bufLen_shiftLeft]
  rw [toNat_bufLen_shiftLeft]
  omega

/-- The value of a concatenation is a sum of its parts, the upper one weighted. -/
theorem toNat_append_eq_add {n k : Nat} (x : BitVec n) (y : BitVec k) :
    (x ++ y).toNat = x.toNat * 2 ^ k + y.toNat := by
  rw [BitVec.toNat_append, ← Nat.shiftLeft_add_eq_or_of_lt y.isLt, Nat.shiftLeft_eq]

/-- The fields of TOTAL do not overlap: the counter's low nine bits are zero (40_word_functions.md R104). -/
theorem totalBits_eq_append {s : State} (h : s.bitLen.toNat % 512 = 0) :
    s.totalBits = s.bitLen.extractLsb' 9 55 ++ s.bufLen ++ 0b000#3 := by
  have hbit := s.bitLen.isLt
  apply BitVec.eq_of_toNat_eq
  rw [totalBits_toNat h, toNat_append_eq_add, toNat_append_eq_add, BitVec.extractLsb'_toNat, Nat.shiftRight_eq_div_pow]
  simp only [BitVec.toNat_ofNat]
  omega

end Sys2Proof.Machine

section
open Sys2Proof Sys2Proof.Machine

/-- Settles O12: where each bit goes, and two rotations that add up to a whole turn. -/
theorem rotrMovesEveryBitRound : Obligations.RotrMovesEveryBitRound := by
  intro x n h₁ h₂
  exact ⟨fun m hm => getLsbD_rotr x (by omega) hm, rotr_rotr_cancel x (by omega) (by omega) (by omega)⟩

/-- Settles O13: the shift as a division, its top bits past the end of the word. -/
theorem shrDividesByAPowerOfTwo : Obligations.ShrDividesByAPowerOfTwo := by
  intro x n
  refine ⟨toNat_shr x n, fun m hm => ?_⟩
  have hpast : ¬ m + n < 32 := by omega
  simp [getLsbD_shr, hpast]

/-- Settles O14: XOR bit by bit over the rotations and the shift. -/
theorem sigmaFunctionsBitByBit : Obligations.SigmaFunctionsBitByBit := by
  intro x m hm
  have hrotr {n : Nat} (hn : n < 32) := getLsbD_rotr x hn hm
  refine ⟨?_, ?_, ?_, ?_⟩
  · simp only [ssig0, BitVec.getLsbD_xor, getLsbD_shr, hrotr, Nat.reduceLT]
  · simp only [ssig1, BitVec.getLsbD_xor, getLsbD_shr, hrotr, Nat.reduceLT]
  · simp only [bsig0, BitVec.getLsbD_xor, hrotr, Nat.reduceLT]
  · simp only [bsig1, BitVec.getLsbD_xor, hrotr, Nat.reduceLT]

/-- Settles O15: `ch` and `maj` on one bit, and `maj` under the two exchanges of neighbours. -/
theorem chSelectsAndMajIsTheMajority : Obligations.ChSelectsAndMajIsTheMajority :=
  ⟨fun e f g _ hm => getLsbD_ch e f g hm, fun a b c m _ => getLsbD_maj a b c m,
    fun a b c => ⟨maj_swap_left a b c, maj_swap_right a b c⟩⟩

/-- Settles O20: at a multiple of 512 the carry names one value of the counter, whose sum is 2^64. -/
theorem bitLenCarriesExactlyAtTheTop : Obligations.BitLenCarriesExactlyAtTheTop := by
  intro n hblocks
  have htop : carry512 n = true ↔ n = 0xfffffffffffffe00#64 := by
    rw [carry512_of_wholeBlocks hblocks, decide_eq_true_iff]
  refine ⟨htop, fun hcarry => ?_, toNat_add_512_of_carry512_eq_false⟩
  rw [htop.mp hcarry]
  decide

/-- Settles O21: the sum has room in 64 bits, and its two terms share no bit. -/
theorem totalIsExactAndIsAConcatenation : Obligations.TotalIsExactAndIsAConcatenation :=
  fun _ hblocks => ⟨totalBits_toNat hblocks, totalBits_eq_append hblocks⟩

end

/-! PROOFS. The compression core: a round written out from the old working variables, and COMPRESS read off any trace of
the 64 rounds (42_compress.md R120 to R125). -/

namespace Sys2Proof.Machine

/-! ## One round -/

/-- T1 down to rotations and bitwise operations on the old values (R121). -/
theorem roundT1_eq (v : WorkVars) (k w : Word) :
    roundT1 v k w =
      v.h + (rotr v.e 6 ^^^ rotr v.e 11 ^^^ rotr v.e 25) + ((v.e &&& v.f) ^^^ (~~~v.e &&& v.g)) + k + w := rfl

/-- T2 down to rotations and bitwise operations on the old values (R121). -/
theorem roundT2_eq (v : WorkVars) :
    roundT2 v =
      (rotr v.a 2 ^^^ rotr v.a 13 ^^^ rotr v.a 22) + ((v.a &&& v.b) ^^^ (v.a &&& v.c) ^^^ (v.b &&& v.c)) := rfl

/-! ## COMPRESS along a trace of its rounds -/

section
variable {h : HashState} {blk : Block} {v : Nat → WorkVars} (hinit : v 0 = wvInit h)
  (hround : ∀ i, i < 64 → v (i + 1) = round (v i) (kWord i) (wWord (schedule blk) i))
include hinit hround

/-- The loop started by WV_INIT follows a trace that takes the same rounds (R120, R123). -/
theorem rounds_wvInit_of_trace {n : Nat} (hn : n ≤ 64) : rounds (schedule blk) n (wvInit h) = v n := by
  rw [← hinit]
  exact rounds_eq_of_trace fun i hi => hround i (by omega)

/-- COMPRESS feeds the trace's 64th element forward (R124, R125). -/
theorem compress_of_trace : compress h blk = feedfwd h (v 64) := by
  rw [compress, rounds_wvInit_of_trace hinit hround (Nat.le_refl 64)]

end

end Sys2Proof.Machine

section
open Sys2Proof Sys2Proof.Machine

/-- Settles O19: the trace is the round loop from the image of `H`, and FEEDFWD adds its 64th element. -/
theorem compressAddsTheLastRoundBack : Obligations.CompressAddsTheLastRoundBack := by
  intro h blk v hinit hround
  exact ⟨fun n hn => rounds_wvInit_of_trace hinit hround hn, compress_of_trace hinit hround⟩

/-- Settles O18: T1 and T2 named for the expressions written out, each assignment is a field of ROUND. -/
theorem roundAssignsAllEightTogether : Obligations.RoundAssignsAllEightTogether := by
  intro v k w
  rw [← roundT1_eq, ← roundT2_eq]
  exact ⟨rfl, rfl, rfl, rfl, rfl, rfl, rfl, rfl⟩

end

/-! PROOFS. Construction on the port: which words are INIT and INIT_IV, and where INIT_IV's operand stands on `iv_in`
(43_construct.md R140, R141; 20_memory.md R55). -/

namespace Sys2Proof.Machine

/-- A word with op 00 on the port is INIT, whatever its low byte and `iv_in` (43_construct.md R140). -/
theorem step_offer_of_op00 {t : Transfer} (h : opField t.cmd = 0b00#2) (s : State) :
    step (s.offer t) = exec .init s := by
  rw [step_offer, decode_of_op00 h]

/-- A word with op 01 on the port is INIT_IV with the eight words of `iv_in` (43_construct.md R141). -/
theorem step_offer_of_op01 {t : Transfer} (h : opField t.cmd = 0b01#2) (s : State) :
    step (s.offer t) = exec (.initIv (portWords t.ivIn)) s := by
  rw [step_offer, decode_of_op01 h]

/-- INIT_IV with the words of `IV` is INIT (43_construct.md R141, corner case 1). -/
theorem exec_initIv_initialHash (s : State) : exec (.initIv initialHash) s = exec .init s := by
  rw [exec_initIv, exec_init]

end Sys2Proof.Machine

section
open Sys2Proof Sys2Proof.Machine

/-- Settles O28: construction with the operand; on the port the operand is the words of `iv_in`, which packed again are
`iv_in`. -/
theorem initIvConstructsTheGivenState : Obligations.InitIvConstructsTheGivenState := by
  refine ⟨fun s iv => exec_initIv iv s, exec_initIv_initialHash, fun s c iv hop => ⟨portWords iv, ?_, ?_, ?_⟩⟩
  · exact step_offer_of_op01 (t := ⟨c, iv⟩) hop s
  · exact hashWord_portWords iv
  · exact packWords_portWords iv

/-- Settles O27: construction with the printed words of `IV`; on the port the operation code alone selects it. -/
theorem initConstructsTheDefaultState : Obligations.InitConstructsTheDefaultState :=
  ⟨exec_init, fun s c iv hop => step_offer_of_op00 (t := ⟨c, iv⟩) hop s⟩

end

/-! PROOFS. APPEND as whole-state equations: PUSH at each fill of the block (44_append.md R150), an accepted byte at
each fill, and which words on the port are APPEND (44_append.md R151). -/

namespace Sys2Proof.Machine

/-! ## PUSH by fill -/

theorem push_of_inside {s : State} (x : Byte) (h : s.bufLen ≠ 63#6) :
    push x s = ({ s with buf := Memory.write s.buf s.bufLen.toNat x, bufLen := s.bufLen + 1#6 }, false) :=
  if_neg h

/-- The block compressed at the 64th byte is that byte last and the 63 buffered ones before it. -/
theorem push_h_of_full {s : State} (x : Byte) (h : s.bufLen = 63#6) :
    (push x s).1.h = compress s.h (fun p => if p = 63#6 then x else s.bufByte p.toNat) := by
  rw [push_h, if_pos h, h]
  rfl

theorem push_state_of_full {s : State} (x : Byte) (h : s.bufLen = 63#6) :
    (push x s).1 = { s with
      buf := Memory.write s.buf 63 x
      h := compress s.h (fun p => if p = 63#6 then x else s.bufByte p.toNat)
      bitLen := s.bitLen + 512#64, bufLen := 0#6 } := by
  apply State.ext
  case h => exact push_h_of_full x h
  all_goals simp [h]

theorem push_wrapped_of_full {s : State} (x : Byte) (h : s.bufLen = 63#6) : (push x s).2 = carry512 s.bitLen := by
  simp [h]

/-! ## An accepted byte by fill -/

/-- Inside a block nothing can wrap, so `LEN_OVF` is only reported. -/
theorem acceptByte_of_inside {s : State} (b : Byte) (h : s.bufLen ≠ 63#6) :
    s.acceptByte b = { s with
      buf := Memory.write s.buf s.bufLen.toNat b, bufLen := s.bufLen + 1#6
      rsp := some (executedResponse s.lenOvf) } := by
  apply State.ext <;> simp [h]

/-- At the 64th byte the carry joins `LEN_OVF` before the response is taken from it. -/
theorem acceptByte_of_full {s : State} (b : Byte) (h : s.bufLen = 63#6) :
    s.acceptByte b = { s with
      buf := Memory.write s.buf 63 b
      h := compress s.h (fun p => if p = 63#6 then b else s.bufByte p.toNat)
      bitLen := s.bitLen + 512#64, bufLen := 0#6
      lenOvf := s.lenOvf || carry512 s.bitLen
      rsp := some (executedResponse (s.lenOvf || carry512 s.bitLen)) } := by
  apply State.ext
  case h => exact push_h_of_full b h
  all_goals simp [h]

/-! ## On the port -/

/-- A word with op 10 on the port is APPEND of its low byte, whatever stands on `iv_in` (44_append.md R151). -/
theorem step_offer_of_op10 {t : Transfer} (h : opField t.cmd = 0b10#2) (s : State) :
    step (s.offer t) = exec (.append (byteField t.cmd)) s := by
  rw [step_offer, decode_of_op10 h]

end Sys2Proof.Machine

section
open Sys2Proof Sys2Proof.Machine

/-- Settles O29: PUSH's equation at each fill of the block. -/
theorem pushStoresAndCompressesTheFullBlock : Obligations.PushStoresAndCompressesTheFullBlock := by
  refine fun x s => ⟨fun h => ?_, fun h => ?_⟩
  · rw [push_of_inside x h]
    exact ⟨rfl, rfl⟩
  · exact ⟨push_state_of_full x h, push_wrapped_of_full x h⟩

/-- Settles O30: APPEND by phase, the accepted byte by fill of the block, and the operation code on the port. -/
theorem appendFollowsItsRule : Obligations.AppendFollowsItsRule := by
  refine ⟨fun s b hp => ?_, fun s b hp h => ?_, fun s b hp h => ?_, fun s c iv hop => ?_⟩
  · exact exec_append_finalized b hp
  · rw [exec_append_accepting b hp, acceptByte_of_inside b h]
    rfl
  · rw [exec_append_accepting b hp, acceptByte_of_full b h]
    rfl
  · exact step_offer_of_op10 (t := ⟨c, iv⟩) hop s

end

/-! PROOFS. FINALIZE: the padding byte by byte (45_finalize.md R161, R162), the padded blocks it compresses
(45_finalize.md R163, R169), and its digest as a function of the initial state and the message (45_finalize.md R167,
R168). -/

namespace Sys2Proof.Machine

/-! ## The padding byte by byte -/

/-- `be64` lists the value's bytes from the top (00_scope.md R10). -/
theorem be64_getElem? (v : BitVec 64) {m : Nat} (h : m < 8) : (be64 v)[m]? = some (v.extractLsb' (56 - 8 * m) 8) := by
  interval_cases m <;> rfl

theorem zerosThenLength_getElem?_zeros (total : BitVec 64) {z n : Nat} (h : n < z) :
    (List.replicate z 0x00#8 ++ be64 total)[n]? = some 0x00#8 := by
  rw [List.getElem?_append_left (by simpa using h), List.getElem?_replicate_of_lt h]

theorem zerosThenLength_getElem?_length (total : BitVec 64) (z : Nat) {n : Nat} (h : n < 8) :
    (List.replicate z 0x00#8 ++ be64 total)[z + n]? = some (total.extractLsb' (56 - 8 * n) 8) := by
  rw [List.getElem?_append_right (by simp), List.length_replicate, Nat.add_sub_cancel_left, be64_getElem? total h]

/-- When the zeros reach offset 56 of a block, TOTAL takes its last eight places (45_finalize.md R161, R162). -/
theorem zerosThenLength_getElem?_of_offset (total : BitVec 64) {z q p : Nat} (hz : z + p = 56 + q) (hp : p < 64) :
    (List.replicate z 0x00#8 ++ be64 total)[q]? =
      some (if p < 56 then 0x00#8 else total.extractLsb' (8 * (63 - p)) 8) := by
  by_cases h : p < 56
  · rw [if_pos h, zerosThenLength_getElem?_zeros total (by omega)]
  · have hq : q = z + (p - 56) := by omega
    have hplace : 56 - 8 * (p - 56) = 8 * (63 - p) := by omega
    rw [if_neg h, hq, zerosThenLength_getElem?_length total z (by omega), hplace]

theorem padding_getElem?_succ (total : BitVec 64) (z n : Nat) :
    (padding total z)[n + 1]? = (List.replicate z 0x00#8 ++ be64 total)[n]? :=
  List.getElem?_cons_succ

/-- The 0x80 byte and the zeros end at offset 56 of a block (45_finalize.md R161). -/
theorem zeroCount_ends_at_56 (l : BitVec 6) : zeroCount l ≤ 63 ∧ (l.toNat + 1 + zeroCount l) % 64 = 56 := by
  have hlt := l.isLt
  rw [zeroCount]
  split <;> omega

/-- From offset 56 on the padding is cut where the block ends: 0x80 and zeros up to there, then 56 zeros and TOTAL. -/
theorem padding_of_two_blocks (total : BitVec 64) {l : BitVec 6} (h : 56 ≤ l.toNat) :
    padding total (zeroCount l) =
      (0x80#8 :: List.replicate (63 - l.toNat) 0x00#8) ++ (List.replicate 56 0x00#8 ++ be64 total) := by
  have hlt := l.isLt
  have hz : zeroCount l = (63 - l.toNat) + 56 := by
    rw [zeroCount, if_neg (by omega)]
    omega
  rw [padding, hz, List.replicate_add, List.cons_append, List.append_assoc]

/-- TOTAL as the sum of the counter and eight times the byte count (45_finalize.md R160). -/
theorem totalBits_eq_add (s : State) : s.totalBits = s.bitLen + BitVec.ofNat 64 (8 * s.bufLen.toNat) := by
  rw [State.totalBits, ← toNat_bufLen_shiftLeft, BitVec.ofNat_toNat, BitVec.setWidth_eq]

/-! ## The padded blocks -/

/-- The block begun, closed with the 0x80 byte and the places of `rest` after it. -/
def State.closedBlock (s : State) (rest : Block) : Block := fun p =>
  if p < s.bufLen then s.bufByte p.toNat else if p = s.bufLen then 0x80#8 else rest p

/-- Zeros up to offset 56 and the length after them. -/
def lengthBlock (total : BitVec 64) : Block := fun p =>
  if p.toNat < 56 then 0x00#8 else total.extractLsb' (8 * (63 - p.toNat)) 8

/-- PUSHes up to the end of the block compress the block whose bytes are the buffered and the pushed ones. -/
theorem pushAll_to_block_end {xs : List Byte} {s : State} {blk : Block} (hlen : s.bufLen.toNat + xs.length = 64)
    (hbuf : ∀ p, p < s.bufLen → blk p = s.bufByte p.toNat)
    (hxs : ∀ p, ¬ p < s.bufLen → xs[p.toNat - s.bufLen.toNat]? = some (blk p)) :
    (pushAll xs s).h = compress s.h blk ∧ (pushAll xs s).bufLen = 0#6 ∧ (pushAll xs s).block = blk ∧
    ∀ p, 64 ≤ p → (pushAll xs s).bufByte p = s.bufByte p := by
  have hlt := s.bufLen.isLt
  have hne : xs ≠ [] := by
    rintro rfl
    simp at hlen
    omega
  have hblk : (fun p => if p < s.bufLen then s.block p else xs.getD (p.toNat - s.bufLen.toNat) 0#8) = blk := by
    funext p
    split
    · next hp => exact (hbuf p hp).symm
    · next hp => rw [List.getD_eq_getElem?_getD, hxs p hp, Option.getD_some]
  obtain ⟨hh, -, hbl, hb, habove⟩ := pushAll_fill xs s hne hlen
  rw [hblk] at hh hb
  exact ⟨hh, hbl, hb, habove⟩

/-- The 0x80 byte and what follows it up to the end of the block close the block begun (45_finalize.md R162). -/
theorem pushAll_closing {ys : List Byte} {s : State} {rest : Block} (hlen : s.bufLen.toNat + (ys.length + 1) = 64)
    (hys : ∀ p, s.bufLen.toNat < p.toNat → ys[p.toNat - (s.bufLen.toNat + 1)]? = some (rest p)) :
    let t := pushAll (0x80#8 :: ys) s
    t.h = compress s.h (s.closedBlock rest) ∧ t.bufLen = 0#6 ∧ t.block = s.closedBlock rest ∧
    ∀ p, 64 ≤ p → t.bufByte p = s.bufByte p := by
  refine pushAll_to_block_end hlen (fun p hp => if_pos hp) fun p hp => ?_
  rw [State.closedBlock, if_neg hp]
  rw [BitVec.lt_def] at hp
  by_cases hpe : p = s.bufLen
  · rw [if_pos hpe, hpe, Nat.sub_self]
    rfl
  · have hpn : p.toNat ≠ s.bufLen.toNat := fun e => hpe (BitVec.eq_of_toNat_eq e)
    have hq : p.toNat - s.bufLen.toNat = (p.toNat - (s.bufLen.toNat + 1)) + 1 := by omega
    rw [if_neg hpe, hq, List.getElem?_cons_succ, hys p (by omega)]

/-- Below 56 buffered bytes FINALIZE compresses one block (45_finalize.md R163). -/
theorem padded_of_lt {s : State} (h : s.bufLen.toNat < 56) :
    let blk := s.closedBlock (lengthBlock s.totalBits)
    (padded s).h = compress s.h blk ∧ (padded s).block = blk ∧ ∀ p, 64 ≤ p → (padded s).bufByte p = s.bufByte p := by
  have hz : zeroCount s.bufLen = 55 - s.bufLen.toNat := if_pos h
  obtain ⟨hh, -, hb, habove⟩ := pushAll_closing (s := s) (rest := lengthBlock s.totalBits)
    (ys := List.replicate (zeroCount s.bufLen) 0x00#8 ++ be64 s.totalBits) (by simp; omega)
    fun p hp => zerosThenLength_getElem?_of_offset s.totalBits (by omega) p.isLt
  exact ⟨hh, hb, habove⟩

/-- Zeros up to offset 56 and the length are a block of their own when the buffer is empty. -/
theorem pushAll_lengthBytes (total : BitVec 64) {s : State} (h : s.bufLen = 0#6) :
    let t := pushAll (List.replicate 56 0x00#8 ++ be64 total) s
    t.h = compress s.h (lengthBlock total) ∧ t.block = lengthBlock total ∧
    ∀ p, 64 ≤ p → t.bufByte p = s.bufByte p := by
  obtain ⟨hh, -, hb, habove⟩ := pushAll_to_block_end (xs := List.replicate 56 0x00#8 ++ be64 total)
    (s := s) (blk := lengthBlock total) (by simp [h]) (fun p hp => by simp [h, BitVec.lt_def] at hp) fun p _ => by
      rw [h]
      exact zerosThenLength_getElem?_of_offset total rfl p.isLt
  exact ⟨hh, hb, habove⟩

/-- From 56 buffered bytes on FINALIZE compresses two blocks (45_finalize.md R163). -/
theorem padded_of_ge {s : State} (h : 56 ≤ s.bufLen.toNat) :
    (padded s).h = compress (compress s.h (s.closedBlock fun _ => 0x00#8)) (lengthBlock s.totalBits) ∧
    (padded s).block = lengthBlock s.totalBits ∧ ∀ p, 64 ≤ p → (padded s).bufByte p = s.bufByte p := by
  have hlt := s.bufLen.isLt
  obtain ⟨hh₁, hbl₁, -, habove₁⟩ := pushAll_closing (s := s) (rest := fun _ => 0x00#8)
    (ys := List.replicate (63 - s.bufLen.toNat) 0x00#8) (by simp; omega)
    fun p hp => List.getElem?_replicate_of_lt (by omega)
  obtain ⟨hh₂, hb₂, habove₂⟩ := pushAll_lengthBytes s.totalBits hbl₁
  rw [padded, padding_of_two_blocks _ h, pushAll_append]
  exact ⟨by rw [hh₂, hh₁], hb₂, fun p hp => (habove₂ p hp).trans (habove₁ p hp)⟩

/-- An accepted FINALIZE as one update, the padded state giving the accumulator, the counter and the buffer. -/
theorem finalizeMessage_eq (s : State) :
    s.finalizeMessage = { s with
      h := (padded s).h, bitLen := (padded s).bitLen, bufLen := 0#6, phase := .finalized
      buf := s.finalizeMessage.buf, rsp := some (executedResponse s.lenOvf) } := by
  apply State.ext <;> simp

/-- What FINALIZE leaves, from the blocks its padding made: `h` the accumulator, `n` the counter, `blk` the last block
(45_finalize.md R163, R169). -/
theorem exec_finalize_of_padded {s : State} {h : HashState} {n : BitVec 64} {blk : Block} (hp : s.phase = .accepting)
    (hh : (padded s).h = h) (hn : (padded s).bitLen = n) (hb : (padded s).block = blk)
    (habove : ∀ p, 64 ≤ p → (padded s).bufByte p = s.bufByte p) :
    ∃ t, exec .finalize s = .next t ∧
      t = { s with h := h, bitLen := n, bufLen := 0#6, phase := .finalized, buf := t.buf
                   rsp := some (executedResponse s.lenOvf) } ∧
      t.hOut = packWords h ∧ (∀ p : BitVec 6, t.bufByte p.toNat = blk p) ∧
      ∀ p, 64 ≤ p → t.bufByte p = s.bufByte p := by
  subst hh hn hb
  exact ⟨s.finalizeMessage, exec_finalize_accepting hp, finalizeMessage_eq s, rfl,
    fun p => finalizeMessage_bufByte s p.toNat, fun p h64 => (finalizeMessage_bufByte s p).trans (habove p h64)⟩

/-- A word with op 11 on the port is FINALIZE, whatever its low byte and `iv_in` (45_finalize.md R163). -/
theorem step_offer_of_op11 {t : Transfer} (h : opField t.cmd = 0b11#2) (s : State) :
    step (s.offer t) = exec .finalize s := by
  rw [step_offer, decode_of_op11 h]

/-! ## The digest of a message -/

theorem absorbed_pushAll_append {s t : State} {m : List Byte} (l : List Byte) (a : Absorbed s m t) :
    Absorbed s (m ++ l) (pushAll l t) := by
  induction l using List.reverseRecOn with
  | nil => simpa using a
  | append_singleton l x ih => rw [pushAll_append, ← List.append_assoc]; exact absorbed_push x ih

/-- With a counter that started at 0, TOTAL is the number of message bits modulo 2^64 (45_finalize.md R160). -/
theorem totalBits_of_absorbed {s t : State} {m : List Byte} (a : Absorbed s m t) (hs : s.bitLen = 0#64) :
    t.totalBits = BitVec.ofNat 64 (8 * m.length) := by
  rw [totalBits_eq_add, a.bitLen, a.bufLen, hs, BitVec.zero_add, ← BitVec.ofNat_add]
  congr 1
  omega

theorem bufLen_of_absorbed {s t : State} {m : List Byte} (a : Absorbed s m t) :
    t.bufLen = BitVec.ofNat 6 m.length :=
  BitVec.eq_of_toNat_eq (a.bufLen.trans (BitVec.toNat_ofNat m.length 6).symm)

/-- FINALIZE after a whole message leaves the hash the rules define, for every length (45_finalize.md R167). -/
theorem finalizeMessage_h_of_absorbed {s t : State} {m : List Byte} (a : Absorbed s m t) (hs : s.bitLen = 0#64) :
    t.finalizeMessage.h = hashFrom s.h m := by
  rw [finalizeMessage_h, padded, totalBits_of_absorbed a hs, bufLen_of_absorbed a]
  exact (absorbed_pushAll_append _ a).h

/-- Construct, append and finalize, run to the end. -/
theorem runCommands_construct_finalize {i : Instr} {s : State} {h : HashState} (hi : exec i s = .next (s.construct h))
    (m : List Byte) :
    runCommands (i :: (appends m ++ [.finalize])) s = .next (acceptAll m (s.construct h)).finalizeMessage := by
  have hp : (acceptAll m (s.construct h)).phase = .accepting := acceptAll_phase m _
  rw [← List.cons_append, runCommands_append, runCommands_construct_appends hi]
  simp only [runCommands, exec_finalize_accepting hp]

theorem acceptAll_construct_lenOvf_eq (s : State) (h : HashState) (m : List Byte) :
    (acceptAll m (s.construct h)).lenOvf = decide (2 ^ 64 ≤ 8 * m.length) := by
  rw [Bool.eq_iff_iff, acceptAll_construct_lenOvf, decide_eq_true_iff]

/-- What the host reads after construct, append and finalize, in terms of the initial state and the message alone
(45_finalize.md R168). -/
theorem finalizeMessage_construct_outputs (s : State) (h : HashState) (m : List Byte) :
    let t := (acceptAll m (s.construct h)).finalizeMessage
    let ovf : Bool := decide (2 ^ 64 ≤ 8 * m.length)
    t.hOut = packWords (hashFrom h m) ∧ t.rsp = some (executedResponse ovf) ∧
    t.status = BitVec.ofBool ovf ++ BitVec.ofBool false ++ BitVec.ofBool true := by
  have ovf := acceptAll_construct_lenOvf_eq s h m
  have a : Absorbed (s.construct h) m (acceptAll m (s.construct h)) := absorbed_acceptAll m (construct_bufLen s h)
  refine ⟨?_, ?_, ?_⟩
  · exact congrArg packWords (finalizeMessage_h_of_absorbed a (construct_bitLen s h))
  · rw [finalizeMessage_rsp, ovf]
  · simp [State.status, ovf, phaseBit]

/-- Construction with an optional initial state (45_finalize.md R168). -/
theorem exec_optional_construct (iv : Option HashState) (s : State) :
    exec (iv.elim .init .initIv) s = .next (s.construct (iv.getD initialHash)) := by
  cases iv with
  | none => exact exec_init s
  | some iv => exact exec_initIv iv s

/-- APPENDs of several calls are the APPENDs of their bytes together. -/
theorem flatten_map_appends (calls : List (List Byte)) : (calls.map appends).flatten = appends calls.flatten :=
  List.map_flatten.symm

end Sys2Proof.Machine

section
open Sys2Proof Sys2Proof.Machine

/-- Settles O22: the count of zeros by the fill of the block, and the padding read at each place. -/
theorem paddingEndsOnABlockBoundary : Obligations.PaddingEndsOnABlockBoundary := by
  intro total len
  obtain ⟨hmax, hoffset⟩ := zeroCount_ends_at_56 len
  refine ⟨hmax, hoffset, bufLen_add_padding total len, rfl, fun n hn => ?_, fun n hn => ?_⟩
  · rw [padding_getElem?_succ, zerosThenLength_getElem?_zeros total hn]
  · rw [Nat.add_right_comm, padding_getElem?_succ, zerosThenLength_getElem?_length total _ hn]

/-- Settles O33: rejected when FINALIZED; else the padded blocks by the fill of the block begun, TOTAL in the spec's
form; and the operation code on the port. -/
theorem finalizeFollowsItsRule : Obligations.FinalizeFollowsItsRule := by
  refine ⟨fun s hp => ?_, fun s hp h => ?_, fun s hp h => ?_, fun s c iv hop => ?_⟩
  · exact exec_finalize_finalized hp
  · rw [← totalBits_eq_add]
    obtain ⟨hh, hb, habove⟩ := padded_of_lt h
    exact exec_finalize_of_padded hp hh (by rw [padded_bitLen, if_pos h]) hb habove
  · rw [← totalBits_eq_add]
    obtain ⟨hh, hb, habove⟩ := padded_of_ge h
    exact exec_finalize_of_padded hp hh (by rw [padded_bitLen, if_neg (by omega)]) hb habove
  · exact step_offer_of_op11 (t := ⟨c, iv⟩) hop s

/-- Settles O50: both runs end in the outputs that the initial state and the joined bytes determine. -/
theorem digestIsAFunctionOfStateAndBytes : Obligations.DigestIsAFunctionOfStateAndBytes := by
  intro s₁ s₂ iv calls₁ calls₂ hcalls
  rw [flatten_map_appends, flatten_map_appends, ← hcalls]
  obtain ⟨hout₁, hrsp₁, hstatus₁⟩ := finalizeMessage_construct_outputs s₁ (iv.getD initialHash) calls₁.flatten
  obtain ⟨hout₂, hrsp₂, hstatus₂⟩ := finalizeMessage_construct_outputs s₂ (iv.getD initialHash) calls₁.flatten
  exact ⟨_, _, runCommands_construct_finalize (exec_optional_construct iv s₁) _,
    runCommands_construct_finalize (exec_optional_construct iv s₂) _, rfl,
    hout₁.trans hout₂.symm, hrsp₁.trans hrsp₂.symm, hstatus₁.trans hstatus₂.symm⟩

end

/-! PROOFS. A command rejected in phase FINALIZED (60_exceptions.md R181). -/

section
open Sys2Proof Sys2Proof.Machine

/-- Settles O34: in phase FINALIZED both commands are `rejectCommand`, which writes the flag and the response only. -/
theorem commandAfterFinalizeIsRejected : Obligations.CommandAfterFinalizeIsRejected := by
  intro s hp
  constructor
  · intro b
    exact exec_append_finalized b hp
  · exact exec_finalize_finalized hp

end

/-! PROOFS. The decoder and the encoder are inverse (30_encoding.md R71 to R74, R81), and the machine runs a presented
sequence as the fold of its commands (00_scope.md R12; 20_memory.md R60; 70_reset_and_hazards.md R200, R203, R209). -/

namespace Sys2Proof

/-! ## The round trip -/

/-- Whatever the command, the decoder undoes the encoder (30_encoding.md R72, R73). -/
@[simp] theorem decode_encode (i : Instr) : decode (encode i) = i := by
  cases i with
  | init => exact decode_of_op00 (t := encode .init) (opField_append 0b00#2 0#8)
  | initIv iv =>
    rw [decode_of_op01 (t := encode (.initIv iv)) (opField_append 0b01#2 0#8), encode, portWords_packWords]
  | append b =>
    rw [decode_of_op10 (t := encode (.append b)) (opField_append 0b10#2 b), encode, byteField_append]
  | finalize => exact decode_of_op11 (t := encode .finalize) (opField_append 0b11#2 0#8)

/-- The canonical form in the decoder's terms: the low byte is zero but for op 10, and `iv_in` but for op 01
(30_encoding.md R74). -/
theorem canonical_iff (t : Transfer) :
    t.canonical = true ↔
      (opField t.cmd = 0b10#2 ∨ byteField t.cmd = 0#8) ∧ (opField t.cmd = 0b01#2 ∨ t.ivIn = 0#256) := by
  simp [Transfer.canonical, Transfer.wordCanonical, Transfer.ivCanonical, opField, byteField]

theorem encode_canonical (i : Instr) : (encode i).canonical = true := by
  rw [canonical_iff]
  cases i with
  | init => exact ⟨.inr (byteField_append 0b00#2 0#8), .inr rfl⟩
  | initIv iv => exact ⟨.inr (byteField_append 0b01#2 0#8), .inl (opField_append 0b01#2 0#8)⟩
  | append b => exact ⟨.inl (opField_append 0b10#2 b), .inr rfl⟩
  | finalize => exact ⟨.inr (byteField_append 0b11#2 0#8), .inr rfl⟩

/-- A transfer is known from its operation code, its low byte and `iv_in`. -/
theorem transfer_eq {t : Transfer} {op : BitVec 2} {b : Byte} {iv : BitVec 256} (hop : opField t.cmd = op)
    (hb : byteField t.cmd = b) (hiv : t.ivIn = iv) : ⟨op ++ b, iv⟩ = t := by
  subst hop hb hiv
  rw [opField_append_byteField]

/-- On canonical transfers the encoder undoes the decoder (30_encoding.md R74). -/
theorem encode_decode {t : Transfer} (h : t.canonical = true) : encode (decode t) = t := by
  obtain ⟨hbyte, hiv⟩ := (canonical_iff t).mp h
  rcases decode_cases t with ⟨hop, hdec⟩ | ⟨hop, hdec⟩ | ⟨hop, hdec⟩ | ⟨hop, hdec⟩
  all_goals
    rw [hdec]
    rw [hop] at hbyte hiv
  · exact transfer_eq hop (by simpa using hbyte) (by simpa using hiv)
  · exact transfer_eq hop (by simpa using hbyte) (packWords_portWords t.ivIn).symm
  · exact transfer_eq hop rfl (by simpa using hiv)
  · exact transfer_eq hop (by simpa using hbyte) (by simpa using hiv)

end Sys2Proof

namespace Sys2Proof.Machine

/-! ## Every step completes -/

theorem exec_completes (i : Instr) (s : State) : ∃ t, exec i s = .next t := by
  rcases exec_cases i s with ⟨-, h⟩ | ⟨_, -, h⟩ | ⟨_, -, -, h⟩ | ⟨-, -, h⟩ | ⟨-, -, h⟩ <;> exact ⟨_, h⟩

theorem step_completes (s : State) : ∃ t, step s = .next t := by
  rcases step_cases s with h | h | ⟨i, h⟩
  · exact ⟨_, h⟩
  · exact ⟨_, h⟩
  · rw [h]
    exact exec_completes i s.dropInput

/-! ## What a step does with the sample it takes -/

section
variable {s : State} {p : PortSample} {rest : List PortSample} (hs : s.inputs = p :: rest)
include hs

theorem nextRequest_of_inputs_cons : s.nextRequest = p.request := by simp [State.nextRequest, hs]

theorem dropInput_of_inputs_cons : s.dropInput = { s with inputs := rest } := by simp [State.dropInput, hs]

/-- With `rst` asserted nothing else on the sample counts (60_exceptions.md R185). -/
theorem step_of_rst (hrst : p.rst = true) : step s = .next s.dropInput.hardwareReset :=
  step_reset (by simp [nextRequest_of_inputs_cons hs, PortSample.request, hrst])

theorem step_of_cmdValid (hrst : p.rst = false) (hvalid : p.cmdValid = true) :
    step s = exec (decode ⟨p.cmd, p.ivIn⟩) { s with inputs := rest } := by
  rw [step_command (t := ⟨p.cmd, p.ivIn⟩) (by simp [nextRequest_of_inputs_cons hs, PortSample.request, hrst, hvalid]),
    dropInput_of_inputs_cons hs]

theorem step_of_no_command (hrst : p.rst = false) (hvalid : p.cmdValid = false) :
    step s = .next { s with inputs := rest } := by
  rw [step_idle (by simp [nextRequest_of_inputs_cons hs, PortSample.request, hrst, hvalid]),
    dropInput_of_inputs_cons hs]

end

/-- A host that drives nothing changes nothing. -/
theorem step_of_inputs_nil {s : State} (hs : s.inputs = []) : step s = .next s := by
  rw [step_idle (by simp [State.nextRequest, hs])]
  exact congrArg _ (State.ext rfl rfl rfl rfl rfl rfl rfl rfl (by simp [hs]) rfl)

/-- `IV` as it stands on `h_out` after reset (10_state.md R39). -/
theorem packWords_initialHash :
    packWords initialHash = 0x6a09e667bb67ae853c6ef372a54ff53a510e527f9b05688c1f83d9ab5be0cd19#256 := by
  decide

theorem hardwareReset_status (s : State) : s.hardwareReset.status = 0b000#3 := by
  simp [State.status, phaseBit]

/-- INIT right after a hardware reset changes nothing but the response (10_state.md R39). -/
theorem exec_init_hardwareReset (s : State) :
    exec .init s.hardwareReset = .next { s.hardwareReset with rsp := some .ok } := exec_init s.hardwareReset

/-! ## Running a presented sequence -/

theorem runCommands_cons {i : Instr} {s t : State} (is : List Instr) (h : exec i s = .next t) :
    runCommands (i :: is) s = runCommands is t := by
  rw [runCommands, h]

theorem run_succ {M : Host.Core} {n : Nat} {s t : M.State} (h : M.step s = .next t) : M.run (n + 1) s = M.run n t := by
  rw [Host.Core.run, h]

/-- A command presented in its canonical encoding is run by the next step. -/
theorem step_presentCommand (i : Instr) (s : State) (l : List PortSample) :
    step { s with inputs := presentCommand i :: l } = exec i { s with inputs := l } := by
  have h := step_offer { s with inputs := l } (encode i)
  rwa [decode_encode] at h

/-- The machine on a presented sequence is the left fold of the command rules (20_memory.md R60). -/
theorem run_presented (is : List Instr) (s : State) (rest : List PortSample) :
    Host.Core.run core is.length { s with inputs := is.map presentCommand ++ rest } =
      runCommands is { s with inputs := rest } := by
  induction is generalizing s with
  | nil => rfl
  | cons i is ih =>
    obtain ⟨t, ht⟩ := exec_completes i s
    have hstep : step { s with inputs := presentCommand i :: (is.map presentCommand ++ rest) } =
        .next { t with inputs := is.map presentCommand ++ rest } := by
      rw [step_presentCommand, exec_withInputs i s _ ht]
    rw [runCommands_cons is (exec_withInputs i s rest ht), ← ih t]
    exact run_succ (M := core) hstep

end Sys2Proof.Machine

section
open Sys2Proof Sys2Proof.Machine

/-- Settles O7: the four encodings read back field by field, their ignored wires zero. -/
theorem decodeOfEncodeIsTheCommand : Obligations.DecodeOfEncodeIsTheCommand :=
  fun i _ => ⟨decode_encode i, encode_canonical i⟩

/-- Settles O8: the fields the decoder ignores are zero in a canonical transfer, and those it reads are laid back. -/
theorem encodeOfDecodeIsTheCanonicalTransfer : Obligations.EncodeOfDecodeIsTheCanonicalTransfer :=
  fun _ h => encode_decode h

/-- Settles O5: each of the five things a command can do, and each of the three things a step can, answers a state. -/
theorem everyStepAndEveryCommandCompletes : Obligations.EveryStepAndEveryCommandCompletes :=
  ⟨step_completes, exec_completes⟩

/-- Settles O6, by induction on the sequence: one step takes one sample, and no command touches the later ones. -/
theorem runIsTheFoldOfTheCommands : Obligations.RunIsTheFoldOfTheCommands := run_presented

/-- Settles O2: the step is a hardware reset, whose registers are those of `State.reset`. -/
theorem hardwareResetFromEveryState : Obligations.HardwareResetFromEveryState := by
  intro s p rest hs hrst
  refine ⟨_, step_of_rst hs hrst, rfl, rfl, rfl, rfl, rfl, rfl, read?_nil, rfl, rfl,
    hardwareReset_status _, packWords_initialHash, ?_, exec_init_hardwareReset _⟩
  simp [hs]

/-- Settles O3: the request of the first sample in each case, and no request without one. -/
theorem stepRunsTheAcceptedCommand : Obligations.StepRunsTheAcceptedCommand :=
  ⟨fun _ _ _ hs hrst hvalid => step_of_cmdValid hs hrst hvalid,
    fun _ _ _ hs hrst hvalid => step_of_no_command hs hrst hvalid, fun _ hs => step_of_inputs_nil hs⟩

/-- Settles O4: `withFetchWord` offers the transfer that `decodeTableWord` decodes. -/
theorem fetchWordIsTheNextCommand : Obligations.FetchWordIsTheNextCommand :=
  fun s nbits w => ⟨_, rfl, step_offer s (transferOfTableWord nbits w)⟩

/-- Settles O11: each printed word by its operation code, its low byte and `iv_in` read off. -/
theorem encodingExamplesDecode : Obligations.EncodingExamplesDecode :=
  ⟨decode_of_op00 rfl, decode_of_op10 rfl, decode_of_op10 rfl, decode_of_op10 rfl, decode_of_op11 rfl,
    decode_of_op01 rfl, decode_of_op00 rfl, decode_of_op01 rfl, decode_of_op11 rfl⟩

end

/-! PROOFS. The invariant between commands (10_state.md R27, R34, R35; 20_memory.md R65; 30_encoding.md R75): it holds
at reset, and each thing a step can do keeps it. -/

namespace Sys2Proof.Machine

/-! ## The counters -/

/-- Whole blocks added to whole blocks, the sum reduced modulo 2^64 (10_state.md R35). -/
theorem wholeBlocks_add {l k : BitVec 64} (hl : l.toNat % 512 = 0) (hk : k.toNat % 512 = 0) :
    (l + k).toNat % 512 = 0 := by
  rw [BitVec.toNat_add]
  omega

/-- Short of the 64th byte the count of buffered bytes does not wrap (10_state.md R33). -/
theorem toNat_bufLen_succ {l : BitVec 6} (h : l ≠ 63#6) : (l + 1#6).toNat = l.toNat + 1 := by
  have hlt := l.isLt
  have hne : l.toNat ≠ 63 := fun e => h (BitVec.eq_of_toNat_eq e)
  exact BitVec.toNat_add_of_lt (by simp; omega)

/-- The places below the new count are those below the old one and the one just filled. -/
theorem lt_bufLen_succ {l : BitVec 6} {p : Nat} (hp : p < (l + 1#6).toNat) : p = l.toNat ∨ p < l.toNat := by
  by_cases h63 : l = 63#6
  · subst h63
    simp at hp
  · rw [toNat_bufLen_succ h63] at hp
    omega

/-! ## The invariant -/

/-- The host's inputs and the count of resets play no part in the invariant. -/
theorem inv_withInputs {s : State} (hs : s.Inv) (l : List PortSample) (n : Nat) :
    State.Inv { s with inputs := l, bufEpoch := n } := by
  obtain ⟨hbuf, hbit, hwritten, hfin, herr, hrsp⟩ := hs
  exact ⟨hbuf, hbit, hwritten, hfin, herr, hrsp⟩

theorem inv_reset : State.reset.Inv where
  bufCanonical := wf_nil
  wholeBlocks := rfl
  bufferedWritten := fun _ hp => absurd hp (Nat.not_lt_zero _)
  finalizedOnBoundary := fun _ => rfl
  errorOnlyFinalized := fun h => absurd h Bool.false_ne_true
  responseAgrees := ⟨rfl, rfl⟩

theorem inv_dropInput {s : State} (hs : s.Inv) : s.dropInput.Inv := inv_withInputs hs _ _

theorem inv_hardwareReset (s : State) : s.hardwareReset.Inv := inv_withInputs inv_reset _ _

/-- What an executed command owes the invariant: it leaves `ERR_PROTOCOL` clear and answers from `LEN_OVF`
(30_encoding.md R75). -/
theorem inv_of_executed {s : State} (hbuf : Memory.wf s.buf = true) (hbit : s.bitLen.toNat % 512 = 0)
    (hwritten : ∀ p, p < s.bufLen.toNat → (Memory.read? s.buf p).isSome = true)
    (hfin : s.phase = .finalized → s.bufLen = 0#6) (herr : s.errProtocol = false)
    (hrsp : s.rsp = some (executedResponse s.lenOvf)) : s.Inv where
  bufCanonical := hbuf
  wholeBlocks := hbit
  bufferedWritten := hwritten
  finalizedOnBoundary := hfin
  errorOnlyFinalized := by simp [herr]
  responseAgrees := by
    rw [hrsp]
    cases hovf : s.lenOvf with
    | false => exact ⟨herr, rfl⟩
    | true => exact ⟨herr, rfl⟩

section
variable {s : State} (hs : s.Inv)
include hs

/-- In phase ACCEPTING no rejection is recorded (10_state.md R28). -/
theorem errProtocol_of_accepting (hp : s.phase = .accepting) : s.errProtocol = false := by
  rw [← Bool.not_eq_true]
  intro herr
  have hfin := hs.errorOnlyFinalized herr
  rw [hp] at hfin
  cases hfin

theorem inv_construct (h : HashState) : (s.construct h).Inv :=
  inv_of_executed hs.bufCanonical rfl (fun _ hp => absurd hp (Nat.not_lt_zero _)) (fun _ => rfl) rfl rfl

theorem inv_rejectCommand (hp : s.phase = .finalized) : s.rejectCommand.Inv where
  bufCanonical := hs.bufCanonical
  wholeBlocks := hs.wholeBlocks
  bufferedWritten := hs.bufferedWritten
  finalizedOnBoundary := hs.finalizedOnBoundary
  errorOnlyFinalized := fun _ => hp
  responseAgrees := rfl

/-- The byte an APPEND stores is the one new place below `BUFLEN` (20_memory.md R65). -/
theorem push_bufferedWritten (x : Byte) {p : Nat} (hp : p < (push x s).1.bufLen.toNat) :
    (Memory.read? (push x s).1.buf p).isSome = true := by
  rw [push_bufLen] at hp
  rw [push_buf, read?_write]
  split
  · rfl
  · next hne => exact hs.bufferedWritten p ((lt_bufLen_succ hp).resolve_left hne)

theorem push_wholeBlocks (x : Byte) : (push x s).1.bitLen.toNat % 512 = 0 := by
  rw [push_bitLen]
  split
  · exact wholeBlocks_add hs.wholeBlocks rfl
  · exact hs.wholeBlocks

theorem inv_acceptByte (hp : s.phase = .accepting) (b : Byte) : (s.acceptByte b).Inv := by
  refine inv_of_executed ?_ (push_wholeBlocks hs b) (fun p => push_bufferedWritten hs b) ?_ ?_ (acceptByte_rsp s b)
  · rw [acceptByte_buf, push_buf]
    exact wf_write b s.bufLen.isLt hs.bufCanonical
  · simp [hp]
  · rw [acceptByte_errProtocol, errProtocol_of_accepting hs hp]

theorem padded_wholeBlocks : (padded s).bitLen.toNat % 512 = 0 := by
  rw [padded_bitLen]
  split
  · exact wholeBlocks_add hs.wholeBlocks rfl
  · exact wholeBlocks_add hs.wholeBlocks rfl

theorem inv_finalizeMessage (hp : s.phase = .accepting) : s.finalizeMessage.Inv := by
  refine inv_of_executed (pushAll_wf _ s hs.bufCanonical) (padded_wholeBlocks hs) (fun p => ?_)
    (fun _ => padded_bufLen s) ?_ ?_
  · simp
  · rw [finalizeMessage_errProtocol, errProtocol_of_accepting hs hp]
  · rw [finalizeMessage_rsp, finalizeMessage_lenOvf]

theorem exec_keeps_inv {i : Instr} {t : State} (ht : exec i s = .next t) : t.Inv := by
  rcases exec_cases i s with ⟨-, h⟩ | ⟨iv, -, h⟩ | ⟨b, -, hp, h⟩ | ⟨-, hp, h⟩ | ⟨-, hp, h⟩
  all_goals rw [h] at ht; cases ht
  · exact inv_construct hs initialHash
  · exact inv_construct hs iv
  · exact inv_acceptByte hs hp b
  · exact inv_finalizeMessage hs hp
  · exact inv_rejectCommand hs hp

theorem step_keeps_inv {t : State} (ht : step s = .next t) : t.Inv := by
  rcases step_cases s with h | h | ⟨i, h⟩
  all_goals rw [h] at ht
  · cases ht
    exact inv_dropInput hs
  · cases ht
    exact inv_hardwareReset _
  · exact exec_keeps_inv (inv_dropInput hs) ht

end

end Sys2Proof.Machine

section
open Sys2Proof Sys2Proof.Machine

/-- Settles O42: a sample dropped, a hardware reset, or one of the five things a command can do. -/
theorem everyStepKeepsTheInvariant : Obligations.EveryStepKeepsTheInvariant :=
  fun _ _ hs ht => step_keeps_inv hs ht

/-- Settles O43: the reset values meet each part, no byte being buffered. -/
theorem resetMeetsTheInvariant : Obligations.ResetMeetsTheInvariant := inv_reset

end

/-! PROOFS. What cannot influence what: the stale bytes of `BUF` no register at all (20_memory.md R65), and the data no
counter, flag or response (44_append.md R157). -/

namespace Sys2Proof.Machine

/-! ## Stale bytes -/

/-- Two states that differ only in the bytes of `BUF` at and above `BUFLEN`, and in the free values. -/
structure SameButStale (s t : State) : Prop where
  h : t.h = s.h
  bufLen : t.bufLen = s.bufLen
  bitLen : t.bitLen = s.bitLen
  phase : t.phase = s.phase
  errProtocol : t.errProtocol = s.errProtocol
  lenOvf : t.lenOvf = s.lenOvf
  rsp : t.rsp = s.rsp
  inputs : t.inputs = s.inputs
  buffered : ∀ p, p < s.bufLen.toNat → s.bufByte p = t.bufByte p

theorem sameButStale_iff (s t : State) :
    SameButStale s t ↔ t = { s with buf := t.buf, bufEpoch := t.bufEpoch } ∧
      ∀ p, p < s.bufLen.toNat → s.bufByte p = t.bufByte p := by
  constructor
  · intro a
    exact ⟨State.ext a.h rfl a.bufLen a.bitLen a.phase a.errProtocol a.lenOvf a.rsp a.inputs rfl, a.buffered⟩
  · rintro ⟨e, hb⟩
    constructor
    case buffered => exact hb
    all_goals rw [e]

namespace SameButStale
variable {s t : State} (a : SameButStale s t)
include a

theorem totalBits : t.totalBits = s.totalBits := by simp [State.totalBits, a.bitLen, a.bufLen]

/-- At the 64th byte no place of the block is stale. -/
theorem push_h (x : Byte) : (Machine.push x t).1.h = (Machine.push x s).1.h := by
  by_cases h63 : s.bufLen = 63#6
  · rw [push_h_of_full x h63, push_h_of_full x (a.bufLen.trans h63), a.h]
    congr 1
    funext p
    split
    · rfl
    · next hne =>
      have hp := p.isLt
      have hpn : p.toNat ≠ 63 := fun e => hne (BitVec.eq_of_toNat_eq e)
      exact (a.buffered p.toNat (by rw [h63]; simp; omega)).symm
  · simp [a.bufLen, h63, a.h]

theorem push (x : Byte) : SameButStale (Machine.push x s).1 (Machine.push x t).1 := by
  constructor
  case h => exact a.push_h x
  case buffered =>
    intro p hp
    rw [push_bufLen] at hp
    rw [push_bufByte, push_bufByte, a.bufLen]
    split
    · rfl
    · next hne => exact a.buffered p ((lt_bufLen_succ hp).resolve_left hne)
  all_goals simp [a.bufLen, a.bitLen, a.phase, a.errProtocol, a.lenOvf, a.rsp, a.inputs]

theorem push_wrapped (x : Byte) : (Machine.push x t).2 = (Machine.push x s).2 := by simp [a.bufLen, a.bitLen]

theorem acceptByte (b : Byte) : SameButStale (s.acceptByte b) (t.acceptByte b) := by
  obtain ⟨hh, hbufLen, hbitLen, hphase, herr, hovf, -, hinputs, hb⟩ := a.push b
  have hwrap := congrArg₂ or hovf (a.push_wrapped b)
  exact ⟨hh, hbufLen, hbitLen, hphase, herr, hwrap, congrArg (fun o => some (executedResponse o)) hwrap, hinputs, hb⟩

theorem construct (h : HashState) : SameButStale (s.construct h) (t.construct h) :=
  ⟨rfl, rfl, rfl, rfl, rfl, rfl, rfl, a.inputs, fun _ hp => absurd hp (Nat.not_lt_zero _)⟩

theorem rejectCommand : SameButStale s.rejectCommand t.rejectCommand :=
  ⟨a.h, a.bufLen, a.bitLen, a.phase, rfl, a.lenOvf, rfl, a.inputs, a.buffered⟩

theorem dropInput : SameButStale s.dropInput t.dropInput :=
  ⟨a.h, a.bufLen, a.bitLen, a.phase, a.errProtocol, a.lenOvf, a.rsp, congrArg List.tail a.inputs, a.buffered⟩

theorem hardwareReset : SameButStale s.hardwareReset t.hardwareReset :=
  ⟨rfl, rfl, rfl, rfl, rfl, rfl, rfl, a.inputs, fun _ hp => absurd hp (Nat.not_lt_zero _)⟩

theorem pushAll (xs : List Byte) : SameButStale (Machine.pushAll xs s) (Machine.pushAll xs t) := by
  induction xs generalizing s t with
  | nil => exact a
  | cons x xs ih => exact ih (a.push x)

theorem finalizeMessage : SameButStale s.finalizeMessage t.finalizeMessage := by
  obtain ⟨hh, hbufLen, hbitLen, -, herr, hovf, -, hinputs, hb⟩ := a.pushAll (padding s.totalBits (zeroCount s.bufLen))
  rw [State.finalizeMessage, State.finalizeMessage, a.totalBits, a.bufLen]
  exact ⟨hh, hbufLen, hbitLen, rfl, herr, hovf, congrArg (fun o => some (executedResponse o)) hovf, hinputs, hb⟩

/-- Every command keeps the relation: it takes the same path in both states. -/
theorem exec (i : Instr) : ∃ s' t', Machine.exec i s = .next s' ∧ Machine.exec i t = .next t' ∧ SameButStale s' t' := by
  rcases exec_cases i s with ⟨rfl, h⟩ | ⟨iv, rfl, h⟩ | ⟨b, rfl, hp, h⟩ | ⟨rfl, hp, h⟩ | ⟨rfl | ⟨b, rfl⟩, hp, h⟩
  · exact ⟨_, _, h, exec_init t, a.construct initialHash⟩
  · exact ⟨_, _, h, exec_initIv iv t, a.construct iv⟩
  · exact ⟨_, _, h, exec_append_accepting b (a.phase.trans hp), a.acceptByte b⟩
  · exact ⟨_, _, h, exec_finalize_accepting (a.phase.trans hp), a.finalizeMessage⟩
  · exact ⟨_, _, h, exec_finalize_finalized (a.phase.trans hp), a.rejectCommand⟩
  · exact ⟨_, _, h, exec_append_finalized b (a.phase.trans hp), a.rejectCommand⟩

theorem nextRequest : t.nextRequest = s.nextRequest := by rw [State.nextRequest, a.inputs, State.nextRequest]

theorem step : ∃ s' t', Machine.step s = .next s' ∧ Machine.step t = .next t' ∧ SameButStale s' t' := by
  have ht := a.nextRequest
  cases hr : s.nextRequest with
  | idle => exact ⟨_, _, step_idle hr, step_idle (ht.trans hr), a.dropInput⟩
  | reset => exact ⟨_, _, step_reset hr, step_reset (ht.trans hr), a.dropInput.hardwareReset⟩
  | command c =>
    rw [step_command hr, step_command (ht.trans hr)]
    exact a.dropInput.exec (decode c)

end SameButStale

/-! ## Control and data -/

/-- Commands on the same row of the opcode table are the same command but for its operand. -/
theorem same_command_of_opcodeRow {i j : Instr} (h : opcodeRow i = opcodeRow j) :
    (i = .init ∧ j = .init) ∨ (∃ iv iv', i = .initIv iv ∧ j = .initIv iv') ∨
    (∃ b b', i = .append b ∧ j = .append b') ∨ (i = .finalize ∧ j = .finalize) := by
  cases i with
  | init =>
    cases j with
    | init => exact .inl ⟨rfl, rfl⟩
    | _ => simp [opcodeRow] at h
  | initIv iv =>
    cases j with
    | initIv iv' => exact .inr (.inl ⟨iv, iv', rfl, rfl⟩)
    | _ => simp [opcodeRow] at h
  | append b =>
    cases j with
    | append b' => exact .inr (.inr (.inl ⟨b, b', rfl, rfl⟩))
    | _ => simp [opcodeRow] at h
  | finalize =>
    cases j with
    | finalize => exact .inr (.inr (.inr ⟨rfl, rfl⟩))
    | _ => simp [opcodeRow] at h

/-- Two states alike in everything a decision may read: phase, counters and flags. -/
structure SameControl (s t : State) : Prop where
  phase : s.phase = t.phase
  bufLen : s.bufLen = t.bufLen
  bitLen : s.bitLen = t.bitLen
  errProtocol : s.errProtocol = t.errProtocol
  lenOvf : s.lenOvf = t.lenOvf

namespace SameControl
variable {s t : State} (a : SameControl s t)
include a

theorem acceptByte (b b' : Byte) : SameControl (s.acceptByte b) (t.acceptByte b') := by
  constructor <;> simp [a.phase, a.bufLen, a.bitLen, a.errProtocol, a.lenOvf]

theorem finalizeMessage : SameControl s.finalizeMessage t.finalizeMessage := by
  constructor <;> simp [padded_bitLen, a.bufLen, a.bitLen, a.errProtocol, a.lenOvf]

theorem rejectCommand : SameControl s.rejectCommand t.rejectCommand :=
  ⟨a.phase, a.bufLen, a.bitLen, rfl, a.lenOvf⟩

/-- Whatever the operands, a command decides, counts and answers alike in both states (44_append.md R157). -/
theorem exec {i j : Instr} (h : opcodeRow i = opcodeRow j) :
    ∃ s' t', Machine.exec i s = .next s' ∧ Machine.exec j t = .next t' ∧ SameControl s' t' ∧ s'.rsp = t'.rsp := by
  have ht := a.phase
  rcases same_command_of_opcodeRow h with ⟨rfl, rfl⟩ | ⟨iv, iv', rfl, rfl⟩ | ⟨b, b', rfl, rfl⟩ | ⟨rfl, rfl⟩
  · exact ⟨_, _, exec_init s, exec_init t, ⟨rfl, rfl, rfl, rfl, rfl⟩, rfl⟩
  · exact ⟨_, _, exec_initIv iv s, exec_initIv iv' t, ⟨rfl, rfl, rfl, rfl, rfl⟩, rfl⟩
  · cases hp : t.phase with
    | accepting =>
      have a' := a.acceptByte b b'
      exact ⟨_, _, exec_append_accepting b (ht.trans hp), exec_append_accepting b' hp, a',
        by rw [acceptByte_rsp, acceptByte_rsp, a'.lenOvf]⟩
    | finalized =>
      exact ⟨_, _, exec_append_finalized b (ht.trans hp), exec_append_finalized b' hp, a.rejectCommand, rfl⟩
  · cases hp : t.phase with
    | accepting =>
      exact ⟨_, _, exec_finalize_accepting (ht.trans hp), exec_finalize_accepting hp, a.finalizeMessage,
        by rw [finalizeMessage_rsp, finalizeMessage_rsp, a.lenOvf]⟩
    | finalized =>
      exact ⟨_, _, exec_finalize_finalized (ht.trans hp), exec_finalize_finalized hp, a.rejectCommand, rfl⟩

end SameControl

end Sys2Proof.Machine

section
open Sys2Proof Sys2Proof.Machine

/-- Settles O44: the relation is kept by each thing a step can do; at the 64th byte no byte of the block is stale. -/
theorem staleBytesNeverInfluenceAResult : Obligations.StaleBytesNeverInfluenceAResult := by
  intro s₁ s₂ hregisters hbuffered
  obtain ⟨t₁, t₂, h₁, h₂, a⟩ := ((sameButStale_iff s₁ s₂).mpr ⟨hregisters, hbuffered⟩).step
  exact ⟨t₁, t₂, h₁, h₂, (sameButStale_iff t₁ t₂).mp a⟩

/-- Settles O45: the same command in both states by its row, then the same path by the phase. -/
theorem controlDependsOnNoData : Obligations.ControlDependsOnNoData := by
  intro i₁ i₂ s₁ s₂ hrow hphase hbufLen hbitLen herr hovf
  obtain ⟨t₁, t₂, h₁, h₂, a, hrsp⟩ := (SameControl.mk hphase hbufLen hbitLen herr hovf).exec hrow
  exact ⟨t₁, t₂, h₁, h₂, a.phase, a.bufLen, a.bitLen, a.errProtocol, a.lenOvf, hrsp⟩

end

/-! PROOFS. `BUF` as storage and one APPEND on it (20_memory.md R50, R57; 44_append.md R150, R151), the counters and `H`
after every command (10_state.md R21, R25, R26, R36), and commands rejected in a row (60_exceptions.md R187). -/

namespace Sys2Proof.Machine

/-! ## The bit count of one byte -/

/-- PUSH counts eight bits unless `BITLEN` wraps: inside a block in `BUFLEN`, at the 64th byte the whole block at once
(10_state.md R36). -/
theorem push_counts_eight_bits {s : State} (x : Byte) (hwrap : ¬ (s.bufLen = 63#6 ∧ carry512 s.bitLen = true)) :
    (push x s).1.bitLen.toNat + 8 * (push x s).1.bufLen.toNat = s.bitLen.toNat + 8 * s.bufLen.toNat + 8 := by
  rw [push_bitLen, push_bufLen]
  by_cases h63 : s.bufLen = 63#6
  · have hcarry : carry512 s.bitLen = false := by simpa [h63] using hwrap
    rw [if_pos h63, toNat_add_512_of_carry512_eq_false hcarry, h63]
    simp
  · rw [if_neg h63, toNat_bufLen_succ h63]
    omega

/-! ## The accumulator after FINALIZE -/

/-- One block or two, by the fill of the block begun (45_finalize.md R163). -/
theorem padded_h_by_fill (s : State) :
    (padded s).h = foldBlocks s.h (s.buffered ++ padding s.totalBits (zeroCount s.bufLen))
      (if s.bufLen.toNat < 56 then 1 else 2) := by
  have hblocks : (s.buffered ++ padding s.totalBits (zeroCount s.bufLen)).length / 64 =
      if s.bufLen.toNat < 56 then 1 else 2 := by
    rw [List.length_append, buffered_length, bufLen_add_padding]
    split <;> rfl
  rw [padded_h, hblocks]

/-! ## Rejected commands -/

theorem exec_rejected {i : Instr} {s : State} (hp : s.phase = .finalized) (hi : i = .finalize ∨ ∃ b, i = .append b) :
    exec i s = .next s.rejectCommand := by
  rcases hi with rfl | ⟨b, rfl⟩
  · exact exec_finalize_finalized hp
  · exact exec_append_finalized b hp

/-- A second rejection writes what the first one wrote (60_exceptions.md R187). -/
@[simp] theorem rejectCommand_rejectCommand (s : State) : s.rejectCommand.rejectCommand = s.rejectCommand := rfl

theorem runCommands_rejected (is : List Instr) {s : State} (hp : s.phase = .finalized)
    (his : ∀ i ∈ is, i = .finalize ∨ ∃ b, i = .append b) :
    runCommands is s.rejectCommand = .next s.rejectCommand := by
  induction is with
  | nil => rfl
  | cons i is ih =>
    have hi := exec_rejected (s := s.rejectCommand) hp (his i List.mem_cons_self)
    rw [runCommands_cons is hi, rejectCommand_rejectCommand]
    exact ih fun j hj => his j (List.mem_cons_of_mem i hj)

end Sys2Proof.Machine

section
open Sys2Proof Sys2Proof.Machine

/-- Settles O25: the reading of a written list, and the place of the new entry in the rising order. -/
theorem bufferWriteIsReadBackThereAndOnlyThere : Obligations.BufferWriteIsReadBackThereAndOnlyThere :=
  fun m p v => ⟨read?_write m p v, fun hp hm => wf_write v hp hm⟩

/-- Settles O26: rising indices force the entries to agree one by one. -/
theorem canonicalBuffersAreDeterminedByTheirBytes : Obligations.CanonicalBuffersAreDeterminedByTheirBytes :=
  fun _ _ h₁ h₂ hread => rising_ext h₁ h₂ hread

/-- Settles O31: the accepted byte's place read back, and every other place. -/
theorem appendStoresOneByteOnly : Obligations.AppendStoresOneByteOnly := by
  intro s b hp
  refine ⟨_, exec_append_accepting b hp, ?_, fun p hne => ?_⟩
  · rw [acceptByte_bufByte, if_pos rfl]
  · rw [acceptByte_bufByte, if_neg hne]

/-- Settles O32: the count of one PUSH, by the fill of the block. -/
theorem appendCountsEightBits : Obligations.AppendCountsEightBits := by
  intro s b hp hwrap
  exact ⟨_, exec_append_accepting b hp, push_counts_eight_bits b (by simpa [carry512] using hwrap)⟩

/-- Settles O35: the first rejection, then by induction nothing more. -/
theorem repeatedViolationsChangeNothingMore : Obligations.RepeatedViolationsChangeNothingMore := by
  intro is s hp hne his
  cases is with
  | nil => exact absurd rfl hne
  | cons i is =>
    rw [runCommands_cons is (exec_rejected hp (his i List.mem_cons_self))]
    exact runCommands_rejected is hp fun j hj => his j (List.mem_cons_of_mem i hj)

/-- Settles O40: the five things a command can do, each with the counters it leaves. -/
theorem countersAfterEveryCommand : Obligations.CountersAfterEveryCommand := by
  intro i s
  rcases exec_cases i s with ⟨rfl, h⟩ | ⟨iv, rfl, h⟩ | ⟨b, rfl, hp, h⟩ | ⟨rfl, hp, h⟩ | ⟨rfl | ⟨b, rfl⟩, hp, h⟩
  all_goals refine ⟨_, h, ?_⟩
  · exact ⟨rfl, rfl⟩
  · exact ⟨rfl, rfl⟩
  · simp [hp]
  · simp [hp, padded_bitLen]
  · simp [hp]
  · simp [hp]

/-- Settles O41: the five things a command can do, each with the accumulator it leaves; reset and an idle sample. -/
theorem onlyConstructionAndCompressionWriteH : Obligations.OnlyConstructionAndCompressionWriteH := by
  refine ⟨fun i s => ?_, fun s h => ⟨_, step_reset h, rfl⟩, fun s h => ⟨_, step_idle h, rfl⟩⟩
  rcases exec_cases i s with ⟨rfl, h⟩ | ⟨iv, rfl, h⟩ | ⟨b, rfl, hp, h⟩ | ⟨rfl, hp, h⟩ | ⟨rfl | ⟨b, rfl⟩, hp, h⟩
  all_goals refine ⟨_, h, ?_⟩
  · rfl
  · rfl
  · by_cases h63 : s.bufLen = 63#6
    · simpa [hp, h63] using push_h_of_full b h63
    · simp [hp, h63]
  · simpa [hp] using padded_h_by_fill s
  · simp [hp]
  · simp [hp]

end

/-! PROOFS. Whole messages: the state APPENDs leave from any fill of the buffer and from a constructed state
(44_append.md R153, R154), COMPRESS_BLOCK (30_encoding.md R80), and the hash on the machine with its cost
(45_finalize.md R167; 70_reset_and_hazards.md R208). -/

namespace Sys2Proof.Machine

/-! ## APPENDs from any state -/

/-- The bytes left over after whole blocks stand in `BUF` in order (44_append.md R154). -/
theorem some_bufByte_of_absorbed {s t : State} {m : List Byte} (a : Absorbed s m t) {p : Nat}
    (hp : p < m.length % 64) : some (t.bufByte p) = m[64 * (m.length / 64) + p]? := by
  have hlt : 64 * (m.length / 64) + p < m.length := by omega
  rw [a.bytes p hp, List.getD_eq_getElem?_getD, List.getElem?_eq_getElem hlt, Option.getD_some]

/-- The accepted APPENDs of a sequence as one update, from any fill of the buffer (44_append.md R154). -/
theorem acceptAll_eq (m : List Byte) (s : State) :
    let bytes := s.buffered ++ m
    let n := bytes.length / 64
    let ovf : Bool := s.lenOvf || decide (2 ^ 64 ≤ s.bitLen.toNat + 512 * n)
    acceptAll m s = { s with
      h := foldBlocks s.h bytes n, bitLen := s.bitLen + BitVec.ofNat 64 (512 * n)
      bufLen := BitVec.ofNat 6 bytes.length, lenOvf := ovf, buf := (acceptAll m s).buf
      rsp := if m = [] then s.rsp else some (executedResponse ovf) } := by
  intro bytes n ovf
  have a : Absorbed s bytes (acceptAll m s) := absorbed_buffered_acceptAll s m
  have hovf : (acceptAll m s).lenOvf = ovf := by
    simp only [acceptAll_lenOvf, ovf, n, bytes, List.length_append, buffered_length]
  have hrsp : (acceptAll m s).rsp = if m = [] then s.rsp else some (executedResponse ovf) := by
    split
    · next hm => rw [hm]; rfl
    · next hm => rw [acceptAll_rsp_of_ne_nil s hm, hovf]
  exact State.ext a.h rfl (bufLen_of_absorbed a) a.bitLen (acceptAll_phase m s) (acceptAll_errProtocol m s) hovf hrsp
    (acceptAll_inputs m s) (acceptAll_bufEpoch m s)

theorem runCommands_completes (is : List Instr) (s : State) : ∃ t, runCommands is s = .next t := by
  induction is generalizing s with
  | nil => exact ⟨s, rfl⟩
  | cons i is ih =>
    obtain ⟨t, ht⟩ := exec_completes i s
    rw [runCommands_cons is ht]
    exact ih t

/-- A sequence run in two parts, each of which completes. -/
theorem runCommands_append_next {is js : List Instr} {s t : State} (h : runCommands is s = .next t) :
    runCommands (is ++ js) s = runCommands js t := by
  rw [runCommands_append, h]

/-- From a zero counter and an empty buffer the bits counted reach 2^64 at 2^61 bytes (10_state.md R29). -/
theorem acceptAll_lenOvf_of_constructed {s : State} (m : List Byte) (hbit : s.bitLen = 0#64) (hbuf : s.bufLen = 0#6)
    (hovf : s.lenOvf = false) : (acceptAll m s).lenOvf = decide (2 ^ 61 ≤ m.length) := by
  rw [acceptAll_lenOvf, hbit, hbuf, hovf, Bool.false_or, decide_eq_decide]
  simp
  omega

/-! ## COMPRESS_BLOCK -/

@[simp] theorem blockBytes_length (blk : Block) : (blockBytes blk).length = 64 := by simp [blockBytes]

/-- A block listed and read again is the block. -/
theorem blockAt_blockBytes (blk : Block) : blockAt (blockBytes blk) 0 = blk := by
  funext p
  have hp := p.isLt
  simp [blockAt, blockBytes, hp]

theorem foldBlocks_blockBytes (h : HashState) (blk : Block) : foldBlocks h (blockBytes blk) 1 = compress h blk := by
  rw [foldBlocks_succ, foldBlocks_zero, blockAt_blockBytes]

/-! ## The padded message -/

/-- FINALIZE's padding after a message makes it the padded message (45_finalize.md R162). -/
theorem absorbed_padded {s t : State} {m : List Byte} (a : Absorbed s m t) (hs : s.bitLen = 0#64) :
    Absorbed s (padMessage m) (padded t) := by
  rw [padded, totalBits_of_absorbed a hs, bufLen_of_absorbed a]
  exact absorbed_pushAll_append _ a

/-- The padded message is the whole blocks that hold the message, the 0x80 byte and the length
(70_reset_and_hazards.md R208). -/
theorem padMessage_length (m : List Byte) : (padMessage m).length = 64 * ((m.length + 8) / 64 + 1) := by
  rw [padMessage, List.length_append, padding_length, zeroCount, BitVec.toNat_ofNat]
  split <;> omega

/-- `BITLEN` after construct, append and finalize counts the padded message's blocks. -/
theorem finalizeMessage_construct_bitLen (s : State) (h : HashState) (m : List Byte) :
    (acceptAll m (s.construct h)).finalizeMessage.bitLen = BitVec.ofNat 64 (512 * ((m.length + 8) / 64 + 1)) := by
  have a := absorbed_padded (absorbed_acceptAll m (construct_bufLen s h)) (construct_bitLen s h)
  rw [finalizeMessage_bitLen, a.bitLen, padMessage_length, construct_bitLen, BitVec.zero_add,
    Nat.mul_div_cancel_left _ (by decide)]

/-! ## The hash on the port -/

/-- Construct, append and finalize presented on the port, for a message short enough to count (45_finalize.md R167). -/
theorem run_construct_finalize {i : Instr} {h : HashState} (hi : ∀ s, exec i s = .next (s.construct h)) (s : State)
    {m : List Byte} (rest : List PortSample) (hm : m.length < 2 ^ 61) :
    ∃ t, Host.Core.run core (m.length + 2)
        { s with inputs := (i :: (appends m ++ [.finalize])).map presentCommand ++ rest } = .next t ∧
      t.hOut = packWords (hashFrom h m) ∧ t.rsp = some .ok ∧ t.status = 0b001#3 ∧ t.inputs = rest := by
  have hlen : m.length + 2 = (i :: (appends m ++ [.finalize])).length := by simp [appends]
  have hovf : decide (2 ^ 64 ≤ 8 * m.length) = false := by
    rw [decide_eq_false_iff_not]
    omega
  obtain ⟨hout, hrsp, hstatus⟩ := finalizeMessage_construct_outputs { s with inputs := rest } h m
  rw [hovf] at hrsp hstatus
  rw [hlen, run_presented]
  exact ⟨_, runCommands_construct_finalize (hi _) m, hout, hrsp, hstatus, by simp⟩

end Sys2Proof.Machine

section
open Sys2Proof Sys2Proof.Machine

/-- Settles O46: a run in two parts; then the phase decides between the absorbed bytes and one rejection. -/
theorem appendingInChunksIsAppendingAtOnce : Obligations.AppendingInChunksIsAppendingAtOnce := by
  intro s a b
  obtain ⟨t, ht⟩ := runCommands_completes (appends a) s
  obtain ⟨u, hu⟩ := runCommands_completes (appends b) t
  have hab : runCommands (appends (a ++ b)) s = .next u := by
    rw [appends, List.map_append]
    exact (runCommands_append_next ht).trans hu
  refine ⟨t, u, ht, hu, hab, fun hp => ?_, fun hp => ?_⟩
  · rw [runCommands_appends _ hp] at hab
    cases hab
    simp only [List.append_assoc]
    exact ⟨acceptAll_eq (a ++ b) s, fun p hp => some_bufByte_of_absorbed (absorbed_buffered_acceptAll s (a ++ b)) hp⟩
  · rw [runCommands_appends_finalized _ hp] at hab
    cases hab
    rfl

/-- Settles O47: the bytes absorbed from an empty buffer, the counter of whole blocks reduced modulo 2^64. -/
theorem stateAfterAppendingAMessage : Obligations.StateAfterAppendingAMessage := by
  intro s m hp hbit hbuf hovf
  have a := absorbed_acceptAll m hbuf
  have hcount : (acceptAll m s).bitLen.toNat = 512 * (m.length / 64) % 2 ^ 64 := by
    rw [a.bitLen, hbit, BitVec.zero_add, BitVec.toNat_ofNat]
  refine ⟨_, runCommands_appends m hp, a.h, a.bufLen, hcount, fun p => some_bufByte_of_absorbed a,
    acceptAll_lenOvf_of_constructed m hbit hbuf hovf, ?_, acceptAll_errProtocol m s, fun hm => ?_⟩
  · rw [acceptAll_phase, hp]
  · rw [hcount, a.bufLen]
    omega

/-- Settles O48: 64 bytes absorbed from a constructed state are one block. -/
theorem compressBlockShowsCompressOnHOut : Obligations.CompressBlockShowsCompressOnHOut := by
  intro s iv blk
  have a := absorbed_acceptAll (blockBytes blk) (construct_bufLen s iv)
  have hovf := acceptAll_lenOvf_of_constructed (s := s.construct iv) (blockBytes blk) rfl rfl rfl
  have hrsp := acceptAll_rsp (s := s.construct iv) (blockBytes blk) rfl
  rw [blockBytes_length] at hovf
  refine ⟨_, runCommands_construct_appends (exec_initIv iv s) _, ?_, ?_, ?_, ?_, ?_⟩
  · rw [State.hOut, a.h, blockBytes_length, construct_h]
    exact congrArg packWords (foldBlocks_blockBytes iv blk)
  · rw [bufLen_of_absorbed a, blockBytes_length]
    rfl
  · rw [a.bitLen, blockBytes_length, construct_bitLen]
    rfl
  · simp [State.status, hovf, phaseBit]
  · rw [hrsp, hovf]
    rfl

/-- Settles O49: the presented sequence is the fold of its commands, whose outputs the message determines; below 2^61
bytes nothing overflows. -/
theorem machineComputesTheHashOfEveryMessage : Obligations.MachineComputesTheHashOfEveryMessage :=
  fun s _ rest hm => ⟨run_construct_finalize exec_init s rest hm,
    fun iv => run_construct_finalize (exec_initIv iv) s rest hm⟩

/-- Settles O51: the counter after FINALIZE is the padded message's, whose length is whole blocks. -/
theorem messageCostsItsNumberOfCompressions : Obligations.MessageCostsItsNumberOfCompressions :=
  fun s m => ⟨_, runCommands_construct_finalize (exec_init s) m, finalizeMessage_construct_bitLen s _ m,
    padMessage_length m⟩

end

/-! PROOFS. The constant tables as roots of the first 64 primes (10_state.md R21, R24): the primes listed once, then
each table entry between two integer bounds. -/

namespace Sys2Proof.Machine

/-! ## The primes of the tables -/

/-- The primes 2, 3, 5, ..., 311 of R24. -/
def tablePrimes : List Nat :=
  [2, 3, 5, 7, 11, 13, 17, 19, 23, 29, 31, 37, 41, 43, 47, 53, 59, 61, 67, 71, 73, 79, 83, 89, 97, 101, 103, 107, 109,
   113, 127, 131, 137, 139, 149, 151, 157, 163, 167, 173, 179, 181, 191, 193, 197, 199, 211, 223, 227, 229, 233, 239,
   241, 251, 257, 263, 269, 271, 277, 281, 283, 293, 307, 311]

/-- Trial division by 2 to 18. -/
def hasNoSmallDivisor (n : Nat) : Bool :=
  decide (2 ≤ n) && (List.range' 2 17).all fun d => decide (n ≤ d) || decide (n % d ≠ 0)

/-- Below 19 squared trial division decides primality. -/
theorem prime_iff_hasNoSmallDivisor {n : Nat} (h : n < 19 ^ 2) : n.Prime ↔ hasNoSmallDivisor n = true := by
  simp only [hasNoSmallDivisor, Bool.and_eq_true, decide_eq_true_iff, List.all_eq_true, List.mem_range'_1,
    Bool.or_eq_true, ne_eq, ← Nat.dvd_iff_mod_eq_zero]
  constructor
  · intro hp
    refine ⟨hp.two_le, fun d hd => ?_⟩
    by_cases hle : n ≤ d
    · exact .inl hle
    · exact .inr ((Nat.prime_def_lt'.mp hp).2 d hd.1 (by omega))
  · rintro ⟨h2, hdiv⟩
    refine Nat.prime_def_le_sqrt.mpr ⟨h2, fun d hd hsqrt => ?_⟩
    have h19 : Nat.sqrt n < 19 := Nat.sqrt_lt'.mpr h
    have hlt : Nat.sqrt n < n := Nat.sqrt_lt_self h2
    exact (hdiv d ⟨hd, by omega⟩).resolve_left (by omega)

/-- The list holds the primes below 312, each once and in order. -/
theorem filter_prime_range : (List.range 312).filter (fun n => decide n.Prime) = tablePrimes := by
  have htrial : (List.range 312).filter (fun n => decide n.Prime) = (List.range 312).filter hasNoSmallDivisor := by
    refine List.filter_congr fun n hn => ?_
    have hlt : n < 312 := List.mem_range.mp hn
    rw [Bool.eq_iff_iff, decide_eq_true_iff, prime_iff_hasNoSmallDivisor (by omega)]
  rw [htrial]
  decide

/-- The numbers below `n` that satisfy `p`, listed in order, are the first values of `Nat.nth p`. -/
theorem nth_of_getElem?_filter_range {p : Nat → Prop} [DecidablePred p] {n i q : Nat}
    (h : ((List.range n).filter (fun k => decide (p k)))[i]? = some q) : Nat.nth p i = q := by
  induction n with
  | zero => simp at h
  | succ n ih =>
    have hcount : ((List.range n).filter fun k => decide (p k)).length = Nat.count p n :=
      List.countP_eq_length_filter.symm
    rw [List.range_succ, List.filter_append, List.getElem?_append] at h
    split at h
    · exact ih h
    · by_cases hp : p n
      · obtain ⟨hi, rfl⟩ : i - _ = 0 ∧ n = q := by simpa [hp, List.getElem?_singleton] using h
        have hlast : i = Nat.count p n := by omega
        rw [hlast, Nat.nth_count hp]
      · simp [hp] at h

theorem nth_prime_eq {i : Nat} (h : i < 64) : Nat.nth Nat.Prime i = tablePrimes.getD i 0 := by
  have hi : i < tablePrimes.length := h
  apply nth_of_getElem?_filter_range (n := 312)
  rw [filter_prime_range, List.getD_eq_getElem?_getD, List.getElem?_eq_getElem hi, Option.getD_some]

/-! ## The roots -/

/-- The whole part of each cube root is below 7, since 311 is below 7 cubed. -/
theorem kWord_is_cube_root : ∀ i, i < 64 → ∃ q, q < 7 ∧
    (q * 2 ^ 32 + (kWord i).toNat) ^ 3 ≤ tablePrimes.getD i 0 * 2 ^ 96 ∧
    tablePrimes.getD i 0 * 2 ^ 96 < (q * 2 ^ 32 + (kWord i).toNat + 1) ^ 3 := by
  decide

/-- The whole part of each square root is below 5, since 19 is below 5 squared. -/
theorem initialHash_is_square_root : ∀ k : Fin 8, ∃ q, q < 5 ∧
    (q * 2 ^ 32 + (hashWord initialHash k).toNat) ^ 2 ≤ tablePrimes.getD k 0 * 2 ^ 64 ∧
    tablePrimes.getD k 0 * 2 ^ 64 < (q * 2 ^ 32 + (hashWord initialHash k).toNat + 1) ^ 2 := by
  decide

end Sys2Proof.Machine

section
open Sys2Proof Sys2Proof.Machine

/-- Settles O16: the primes below 312 in order, and each table entry checked against its prime by integer bounds. -/
theorem constantTablesAreRootsOfThePrimes : Obligations.ConstantTablesAreRootsOfThePrimes := by
  refine ⟨rfl, fun i hi => ?_, fun k => ?_⟩
  · rw [nth_prime_eq hi]
    obtain ⟨q, -, hbounds⟩ := kWord_is_cube_root i hi
    exact ⟨q, hbounds⟩
  · rw [nth_prime_eq (by omega)]
    obtain ⟨q, -, hbounds⟩ := initialHash_is_square_root k
    exact ⟨q, hbounds⟩

end
